-- ==== Sys2Proof/Word.lean ====
section
/-! DEFINITION. The word types of the block (10_state.md R21, 00_scope.md R9, R10): every value is unsigned. -/
namespace Sys2Proof

/-- A byte of BUF (00_scope.md R10). -/
abbrev Byte := BitVec 8

/-- A 16-bit register: A, L, D, RB, ACC, EXP (10_state.md R21). -/
abbrev Half := BitVec 16

/-- A 32-bit register or command word: W, R, STATUS, CMD (10_state.md R21). -/
abbrev Word := BitVec 32

end Sys2Proof
end

