-- ==== Sys2Proof/Syntax.lean ====
section
/-! DEFINITION. The 16 commands of the opcode map (30_encoding.md R85) as one inductive type, one constructor per row
of opcode_table.json. An operand is the field of the command word that the format uses (R81, R82). -/
namespace Sys2Proof

/-- A command of the block. -/
inductive Instr where
  /-- NOP (44_host_control.md R196). -/
  | nop
  /-- SWAPW (40_byteswap.md R103). -/
  | swapw
  /-- SWAPB (40_byteswap.md R104). -/
  | swapb
  /-- CKCLR (41_checksum.md R123). -/
  | ckclr
  /-- CKADDW (41_checksum.md R124). -/
  | ckaddw
  /-- CKADD (41_checksum.md R125). -/
  | ckadd
  /-- CKSUM (41_checksum.md R126). -/
  | cksum
  /-- CKVER (41_checksum.md R127). -/
  | ckver
  /-- CKWR (41_checksum.md R131). -/
  | ckwr
  /-- LUTB (42_lut_text.md R155). -/
  | lutb
  /-- TXTDEC (42_lut_text.md R156). -/
  | txtdec
  /-- TXTNAME (42_lut_text.md R157). -/
  | txtname
  /-- RD16 with IMM, a record offset (43_field_mux.md R171). -/
  | rd16 (imm : Half)
  /-- RD8 with IMM, a record offset (43_field_mux.md R172). -/
  | rd8 (imm : Half)
  /-- RDBIT with IMM, a record offset, and BIT (43_field_mux.md R173). -/
  | rdbit (imm : Half) (bit : BitVec 3)
  /-- FLD with IMM, a selector (43_field_mux.md R175). -/
  | fld (sel : Half)
  deriving DecidableEq, Repr

end Sys2Proof
end

