-- ==== Sys2Proof/WellFormed.lean ====
section
/-! DEFINITION. Which commands the encoding admits: every field value fits its field by its type, and the one further
check is FLD's selector (30_encoding.md R82 "selector, 0..5", R86 condition 5). -/
namespace Sys2Proof

/-- The largest selector of the fixed-field table (43_field_mux.md R174). -/
@[simp] abbrev Instr.maxSelector : Nat := 5

/-- A command that some legal command word encodes. -/
def Instr.wellFormed : Instr → Bool
  | .fld sel => sel.toNat ≤ Instr.maxSelector
  | .nop | .swapw | .swapb | .ckclr | .ckaddw | .ckadd | .cksum | .ckver | .ckwr | .lutb | .txtdec | .txtname => true
  | .rd16 _ | .rd8 _ | .rdbit _ _ => true

end Sys2Proof
end

