-- ==== Sys2Proof/Decode.lean ====
section
/-! DEFINITION. The command word (30_encoding.md R80-R89): its fields, the opcode map, the decoder, total on 32-bit
words and rejecting by name, and after it the encoder. -/
namespace Sys2Proof

/-! ## The fields of a command word (R81) -/

/-- OPC, bits 7:0. -/
def cmdOpc (c : Word) : Byte := c.extractLsb' 0 8

/-- BIT, bits 10:8. -/
def cmdBit (c : Word) : BitVec 3 := c.extractLsb' 8 3

/-- RSV, bits 15:11. -/
def cmdRsv (c : Word) : BitVec 5 := c.extractLsb' 11 5

/-- IMM, bits 31:16. -/
def cmdImm (c : Word) : Half := c.extractLsb' 16 16

/-- The command word with these fields, the most significant first. -/
def cmdWord (imm : Half) (rsv : BitVec 5) (bit : BitVec 3) (opc : Byte) : Word := imm ++ rsv ++ bit ++ opc

/-! ## The opcode map (R85) and the formats (R82) -/

/-- The mnemonics of the opcode map. -/
inductive Opcode where
  | nop | swapw | swapb | ckclr | ckaddw | ckadd | cksum | ckver | ckwr | lutb | txtdec | txtname
  | rd16 | rd8 | rdbit | fld
  deriving DecidableEq, Repr

/-- The four formats of a command word (R82). -/
inductive Format where
  /-- OPC alone. -/
  | f0
  /-- OPC and IMM, a record offset. -/
  | fi
  /-- OPC, IMM and BIT. -/
  | fib
  /-- OPC and IMM, a selector. -/
  | fs
  deriving DecidableEq, Repr

/-- OPC of each mnemonic (R85). -/
def opcodeByte : Opcode → Byte
  | .nop     => 0x00#8
  | .swapw   => 0x10#8
  | .swapb   => 0x11#8
  | .ckclr   => 0x20#8
  | .ckaddw  => 0x21#8
  | .ckadd   => 0x22#8
  | .cksum   => 0x23#8
  | .ckver   => 0x24#8
  | .ckwr    => 0x25#8
  | .lutb    => 0x30#8
  | .txtdec  => 0x31#8
  | .txtname => 0x32#8
  | .rd16    => 0x40#8
  | .rd8     => 0x41#8
  | .rdbit   => 0x42#8
  | .fld     => 0x43#8

/-- The mnemonic of an OPC value; none for an unassigned one (R85, R87). -/
def opcodeOf (opc : Byte) : Option Opcode :=
  match opc.toNat with
  | 0x00 => some .nop
  | 0x10 => some .swapw
  | 0x11 => some .swapb
  | 0x20 => some .ckclr
  | 0x21 => some .ckaddw
  | 0x22 => some .ckadd
  | 0x23 => some .cksum
  | 0x24 => some .ckver
  | 0x25 => some .ckwr
  | 0x30 => some .lutb
  | 0x31 => some .txtdec
  | 0x32 => some .txtname
  | 0x40 => some .rd16
  | 0x41 => some .rd8
  | 0x42 => some .rdbit
  | 0x43 => some .fld
  | _    => none

/-- The format of each mnemonic (R82, R85). -/
def opcodeFormat : Opcode → Format
  | .nop | .swapw | .swapb | .ckclr | .ckaddw | .ckadd | .cksum | .ckver | .ckwr | .lutb | .txtdec | .txtname => .f0
  | .rd16 | .rd8 => .fi
  | .rdbit => .fib
  | .fld => .fs

/-- Does a format use BIT (R82)? -/
def formatUsesBit : Format → Bool
  | .fib => true
  | .f0 | .fi | .fs => false

/-- Does a format use IMM (R82)? -/
def formatUsesImm : Format → Bool
  | .f0 => false
  | .fi | .fib | .fs => true

/-- The command of a mnemonic with the field values IMM and BIT. -/
def instrOf (m : Opcode) (imm : Half) (bit : BitVec 3) : Instr :=
  match m with
  | .nop => .nop
  | .swapw => .swapw
  | .swapb => .swapb
  | .ckclr => .ckclr
  | .ckaddw => .ckaddw
  | .ckadd => .ckadd
  | .cksum => .cksum
  | .ckver => .ckver
  | .ckwr => .ckwr
  | .lutb => .lutb
  | .txtdec => .txtdec
  | .txtname => .txtname
  | .rd16 => .rd16 imm
  | .rd8 => .rd8 imm
  | .rdbit => .rdbit imm bit
  | .fld => .fld imm

/-! ## The decoder (R86, R88) -/

/-- Why a command word is illegal: the five conditions of R86. All of them raise IllegalCommand. -/
inductive Illegal where
  /-- Condition 1: OPC is not in the opcode map. -/
  | unassignedOpcode
  /-- Condition 2: RSV is not 0. -/
  | reservedNotZero
  /-- Condition 3: the format does not use BIT and BIT is not 0. -/
  | unusedBitNotZero
  /-- Condition 4: the format does not use IMM and IMM is not 0. -/
  | unusedImmNotZero
  /-- Condition 5: OPC is FLD and IMM is above 5. -/
  | selectorNotInTable
  deriving DecidableEq, Repr

/-- Decoding, in the order of R88: it reads no register and no byte of BUF. -/
def decode (c : Word) : Except Illegal Instr :=
  match opcodeOf (cmdOpc c) with
  | none => .error .unassignedOpcode
  | some m =>
    if cmdRsv c ≠ 0 then .error .reservedNotZero
    else if formatUsesBit (opcodeFormat m) = false ∧ cmdBit c ≠ 0 then .error .unusedBitNotZero
    else if formatUsesImm (opcodeFormat m) = false ∧ cmdImm c ≠ 0 then .error .unusedImmNotZero
    else if m = .fld ∧ Instr.maxSelector < (cmdImm c).toNat then .error .selectorNotInTable
    else .ok (instrOf m (cmdImm c) (cmdBit c))

/-- The command the decoder reads from a word whose bits are `w`, numbered as opcode_table.json numbers them: the
command word is one 32-bit number, bit 0 its least significant (R80, R81). Bits at `nbits` and above are 0. -/
def decodeTableWord (nbits w : Nat) : Option Instr :=
  match decode (BitVec.ofNat 32 (w % 2 ^ nbits)) with
  | .ok i => some i
  | .error _ => none

/-! ## The encoder -/

/-- The mnemonic of a command. -/
def instrOpcode : Instr → Opcode
  | .nop => .nop
  | .swapw => .swapw
  | .swapb => .swapb
  | .ckclr => .ckclr
  | .ckaddw => .ckaddw
  | .ckadd => .ckadd
  | .cksum => .cksum
  | .ckver => .ckver
  | .ckwr => .ckwr
  | .lutb => .lutb
  | .txtdec => .txtdec
  | .txtname => .txtname
  | .rd16 _ => .rd16
  | .rd8 _ => .rd8
  | .rdbit _ _ => .rdbit
  | .fld _ => .fld

/-- IMM of a command's word: 0 where the format does not use it (R82). -/
def instrImm : Instr → Half
  | .rd16 imm | .rd8 imm | .rdbit imm _ => imm
  | .fld sel => sel
  | .nop | .swapw | .swapb | .ckclr | .ckaddw | .ckadd | .cksum | .ckver | .ckwr | .lutb | .txtdec | .txtname => 0

/-- BIT of a command's word: 0 where the format does not use it (R82). -/
def instrBit : Instr → BitVec 3
  | .rdbit _ bit => bit
  | .nop | .swapw | .swapb | .ckclr | .ckaddw | .ckadd | .cksum | .ckver | .ckwr | .lutb | .txtdec | .txtname => 0
  | .rd16 _ | .rd8 _ | .fld _ => 0

/-- The command word of a command, RSV being 0 (R81, R82, R85). -/
def encode (i : Instr) : Word := cmdWord (instrImm i) 0 (instrBit i) (opcodeByte (instrOpcode i))

end Sys2Proof
end

