-- ==== Sys2Proof/Config.lean ====
section
/-! DEFINITION. What the implementation fixes: the parameters of 00_scope.md R6 with this hardware's values, the one
parameter left open (SCD_BASE), and the free values of BUF at power-on. -/
namespace Sys2Proof

/-- `BUF_BYTES`, the size of BUF (00_scope.md R6, 10_state.md R39, 90_conflicts.md C1). -/
@[simp] abbrev Config.bufBytes : Nat := 32768

/-- `REC_BYTES`, the length of one slot record (R6). -/
@[simp] abbrev Config.recBytes : Nat := 5200

/-- `CK_SPAN`, the number of record bytes the checksum covers, from offset 0 (R6). -/
@[simp] abbrev Config.ckSpan : Nat := 0x1352

/-- `CK_FIELD`, the record offset of the stored checksum (R6). -/
@[simp] abbrev Config.ckField : Nat := 0x1352

/-- `SLOT_FIELD`, the record offset of the slot index byte (R6). -/
@[simp] abbrev Config.slotField : Nat := 0x1354

/-- `NAME_OFF`, the record offset of the name field (R6). -/
@[simp] abbrev Config.nameOff : Nat := 0x0024

/-- `NAME_LEN`, the length of the name field (R6). -/
@[simp] abbrev Config.nameLen : Nat := 8

/-- `DEATHS_OFF`, the record offset of the death count (R6). -/
@[simp] abbrev Config.deathsOff : Nat := 0x0022

/-- `HEARTS_OFF`, the record offset of the heart-container count (R6). -/
@[simp] abbrev Config.heartsOff : Nat := 0x002E

/-- `HEALTH_OFF`, the record offset of the current health (R6). -/
@[simp] abbrev Config.healthOff : Nat := 0x0030

/-- `RUPEES_OFF`, the record offset of the rupee count (R6). -/
@[simp] abbrev Config.rupeesOff : Nat := 0x0034

/-- `SWAP_GROUP`, the number of bytes in a swap group (R6). -/
@[simp] abbrev Config.swapGroup : Nat := 4

/-- `SCD_BASE`, where the host window sits in the platform's address space: a parameter the spec leaves open and no
rule reads (10_state.md R44, 20_memory.md R71, 93_implementation_defined.md I11). A constant without a body: nothing
can be proved of its value. Log entry 5. -/
opaque Config.scdBase : Nat

/-- The free draw of a byte of BUF (70_reset_and_hazards.md R241, 93_implementation_defined.md I1): what BUF holds at
index `i` after the power-on number `powerOn` until something writes it. A constant without a body: a claim holds
for every draw. Log entry 2. -/
opaque Config.powerOnByte (powerOn i : Nat) : Byte

end Sys2Proof
end

