-- ==== Sys2Proof/Machine/State.lean ====
section
/-! DEFINITION. The state of the block (10_state.md R20-R43) as plain data, the host's operations (44_host_control.md
R190), the reasons a step can stop, and the state after power-on and reset. -/
namespace Sys2Proof.Machine

/-- The registers the host names (10_state.md R21). -/
inductive Reg where
  /-- CMD: a write executes a command, a read returns 0 (R31). -/
  | cmd
  /-- STATUS (R32). -/
  | status
  /-- A, the range start (R22). -/
  | a
  /-- L, the range length (R23). -/
  | l
  /-- D, the text destination (R24). -/
  | d
  /-- RB, the record base (R25). -/
  | rb
  /-- W, the data word (R26). -/
  | w
  /-- R, the result (R27). -/
  | r
  /-- ACC, the checksum accumulator (R28). -/
  | acc
  /-- EXP, the expected checksum (R29). -/
  | exp
  deriving DecidableEq, Repr

/-- One operation of the host (44_host_control.md R190). The last two are the same register and buffer accesses
addressed by an offset of the host window and a width in bits (10_state.md R44). -/
inductive HostOp where
  /-- RegWrite(r, v). -/
  | regWrite (reg : Reg) (v : Word)
  /-- RegRead(r). -/
  | regRead (reg : Reg)
  /-- BufWrite(i, b). -/
  | bufWrite (i : Nat) (b : Byte)
  /-- BufRead(i). -/
  | bufRead (i : Nat)
  /-- Reset. -/
  | reset
  /-- A write of `v` at a window offset, `width` bits wide. -/
  | windowWrite (offset : BitVec 16) (width : Nat) (v : Word)
  /-- A read at a window offset, `width` bits wide. -/
  | windowRead (offset : BitVec 16) (width : Nat)
  deriving DecidableEq, Repr

/-- What an operation answers to the host (R190). -/
inductive Response where
  /-- No response (RegWrite, BufWrite, Reset). -/
  | none
  /-- The 32-bit value of a RegRead. -/
  | word (v : Word)
  /-- The byte of a BufRead. -/
  | byte (b : Byte)
  deriving DecidableEq, Repr

/-- What BUF holds: the (index, byte) pairs written since power-on, indices strictly rising. A byte that is not listed
is unspecified (70_reset_and_hazards.md R241). -/
abbrev Memory := List Host.Cell

/-- The canonical form of BUF: indices strictly rising, all of them below `BUF_BYTES` (10_state.md R39). An unlisted
index stands for "not written since power-on", which no listed byte equals, so there is no entry to leave out.
Log entry 2. -/
abbrev Memory.wf (m : Memory) : Prop :=
  m.Pairwise (fun x y => x.1 < y.1) ∧ ∀ c ∈ m, c.1 < Config.bufBytes

/-- The reasons for a fault. There is none: the block has no traps, an error is reported in STATUS and ends the
command, and no command leaves the block stuck (60_exceptions.md R210, 44_host_control.md R195). -/
inductive Fault where
  deriving DecidableEq, Repr

/-- The reasons for a refusal. -/
inductive Refusal where
  /-- Raised by an arm of `exec` for a command that has no meaning yet; no arm raises it. Safe. -/
  | notModelled (mnemonic : String)
  /-- Raised by BufRead and BufWrite with an index of `BUF_BYTES` or above: the operation has no step
  (44_host_control.md R193, R194, R198). Safe. -/
  | bufferIndexOutOfRange (i : Nat)
  /-- Raised by a window access below 0x8000 that is not 32 bits wide: the spec refuses a register access narrower than
  that (R198); a wider one, and another width at an offset that is no register's own, are the model's choice. Safe.
  Log entry 4. -/
  | registerAccessWidth (width : Nat)
  /-- Raised by a window access to BUF that is not 8 bits wide: the spec refuses a wider one (R198); a narrower one is
  the model's choice. Safe. Log entry 4. -/
  | bufferAccessWidth (width : Nat)
  /-- Raised by a 32-bit window access at an offset inside the registers that is no register's own offset: the spec
  gives such an access no effect (10_state.md R44). Safe. Log entry 4. -/
  | noRegisterAtOffset (offset : BitVec 16)
  deriving DecidableEq, Repr

/-- The state: the tuple of 10_state.md R20, and three fields of the model's own at its end. -/
structure State where
  /-- A (R22). -/
  a : Half
  /-- L (R23). -/
  l : Half
  /-- D (R24). -/
  d : Half
  /-- RB (R25). -/
  rb : Half
  /-- W (R26). -/
  w : Word
  /-- R (R27). -/
  r : Word
  /-- ACC (R28). -/
  acc : Half
  /-- EXP (R29). -/
  expected : Half
  /-- STATUS (R32): ERR in bits 2:0, EF in bit 3, MM in bit 4, MMS in bit 5. -/
  status : Word
  /-- BUF (R39). -/
  buf : Memory
  /-- The model's own: which power-on the free draws of BUF belong to (70_reset_and_hazards.md R241). Log entry 2. -/
  powerOn : Nat
  /-- The model's own: the operations the HOST has still to perform, the next one first (44_host_control.md R190).
  Log entry 1. -/
  script : List HostOp
  /-- The model's own: the response of the last operation performed (R190). Log entry 1. -/
  response : Response
  deriving DecidableEq, Repr

/-- The state after the power-on number `n`: every register at its reset value (10_state.md R43), no byte of BUF
written (70_reset_and_hazards.md R241), the host about to perform nothing. -/
def State.atPowerOn (n : Nat) : State where
  a := 0
  l := 0
  d := 0
  rb := 0
  w := 0
  r := 0
  acc := 0
  expected := 0
  status := 0
  buf := []
  powerOn := n
  script := []
  response := .none

/-- The machine right after power-on and reset (10_state.md R43, 70_reset_and_hazards.md R240-R242). -/
def State.reset : State := State.atPowerOn 0

end Sys2Proof.Machine
end

