-- ==== Sys2Proof/Machine/Flags.lean ====
section
/-! DEFINITION. STATUS (10_state.md R32-R37): the fields of the word, every way a command or the host writes them, and
the error codes (60_exceptions.md R211). There are no other flags (10_state.md R42). -/
namespace Sys2Proof.Machine

/-- ERR, bits 2:0 (R33). -/
def Status.err (st : Word) : BitVec 3 := st.extractLsb' 0 3

/-- EF, bit 3 (R34). -/
def Status.ef (st : Word) : Bool := st.getLsbD 3

/-- MM, bit 4 (R35). -/
def Status.mm (st : Word) : Bool := st.getLsbD 4

/-- MMS, bit 5 (R36). -/
def Status.mms (st : Word) : Bool := st.getLsbD 5

/-- Bits 31:6, reserved (R37). -/
def Status.reserved (st : Word) : BitVec 26 := st.extractLsb' 6 26

/-- STATUS with bit `i` set to `b`, every other bit kept. -/
def Status.setBit (st : Word) (i : Nat) (b : Bool) : Word :=
  if b then st ||| BitVec.twoPow 32 i else st &&& ~~~(BitVec.twoPow 32 i)

/-- STATUS with ERR set to `e`, every other bit kept (R33). -/
def Status.setErr (st : Word) (e : BitVec 3) : Word := st.extractLsb' 3 29 ++ e

/-- What CKVER writes: MM is the verdict, and a mismatch sets MMS (41_checksum.md R127, 10_state.md R35, R36). -/
def Status.setVerdict (st : Word) (mismatch : Bool) : Word :=
  if mismatch then Status.setBit (Status.setBit st 4 true) 5 true else Status.setBit st 4 false

/-- A host write of `v` to STATUS: bit 3 clears EF, bit 5 clears MMS, every other bit is ignored
(44_host_control.md R191, R197). -/
def Status.hostWrite (st v : Word) : Word :=
  let st1 := if v.getLsbD 3 then Status.setBit st 3 false else st
  if v.getLsbD 5 then Status.setBit st1 5 false else st1

/-- What a host read of STATUS returns: bits 31:6 as 0 (44_host_control.md R192, 10_state.md R37). -/
def Status.hostRead (st : Word) : Word := st &&& 0x3F#32

/-- The kinds of error a command can end in (60_exceptions.md R211). -/
inductive ErrorKind where
  /-- Code 1. -/
  | malformedInput
  /-- Code 2. -/
  | outOfRange
  /-- Code 3. -/
  | illegalCommand
  deriving DecidableEq, Repr

/-- The code of an error kind, written to ERR (R211). Codes 4-7 are never produced. -/
def errorCode : ErrorKind → BitVec 3
  | .malformedInput => 1#3
  | .outOfRange => 2#3
  | .illegalCommand => 3#3

/-- STATUS after a command that succeeded: ERR is 0, the rest is kept (60_exceptions.md R213). -/
def Status.succeed (st : Word) : Word := Status.setErr st 0#3

/-- STATUS after a command that ended in error `e`: ERR is its code, EF is 1, the rest is kept (60_exceptions.md
R214). -/
def Status.fail (st : Word) (e : ErrorKind) : Word := Status.setBit (Status.setErr st (errorCode e)) 3 true

end Sys2Proof.Machine
end

