-- ==== Sys2Proof/Machine/Ops.lean ====
section
/-! DEFINITION. The named operations over registers and BUF, and the two ends of a command: `done` and `raise`. The
block has no exception entry and no return from one (60_exceptions.md R210, R218, R219): `raise` is its whole error
mechanism (R214), and `done` is the other end (R213). -/
namespace Sys2Proof.Machine

/-- What a command, an operation of the host or a step answers. -/
abbrev Result := Host.Outcome State Fault Refusal

/-! ## Registers: `x[r] <- v` of 00_scope.md R11 -/

/-- `x[A] <- v`. -/
def State.setA (s : State) (v : Half) : State := { s with a := v }

/-- `x[L] <- v`. -/
def State.setL (s : State) (v : Half) : State := { s with l := v }

/-- `x[D] <- v`. -/
def State.setD (s : State) (v : Half) : State := { s with d := v }

/-- `x[RB] <- v`. -/
def State.setRb (s : State) (v : Half) : State := { s with rb := v }

/-- `x[W] <- v`. -/
def State.setW (s : State) (v : Word) : State := { s with w := v }

/-- `x[R] <- v`. -/
def State.setR (s : State) (v : Word) : State := { s with r := v }

/-- `x[ACC] <- v`. -/
def State.setAcc (s : State) (v : Half) : State := { s with acc := v }

/-- `x[EXP] <- v`. -/
def State.setExpected (s : State) (v : Half) : State := { s with expected := v }

/-- STATUS written whole. -/
def State.setStatus (s : State) (v : Word) : State := { s with status := v }

/-- BUF replaced. -/
def State.setBuf (s : State) (m : Memory) : State := { s with buf := m }

/-- The operations the host has still to perform replaced. -/
def State.setScript (s : State) (ops : List HostOp) : State := { s with script := ops }

/-- The response of the operation. -/
def State.setResponse (s : State) (v : Response) : State := { s with response := v }

/-! ## BUF -/

/-- What an index that nothing has written since power-on reads as: its free draw (70_reset_and_hazards.md R241). -/
def Memory.unlisted (powerOn i : Nat) : Byte := Config.powerOnByte powerOn i

/-- The byte at index `i` (00_scope.md R10). -/
def Memory.read (m : Memory) (powerOn i : Nat) : Byte := (m.lookup i).getD (Memory.unlisted powerOn i)

/-- The pairs that put the bytes `bs` at the indices from `a` on. -/
def Memory.cellsAt (a : Nat) : List Byte → Memory
  | [] => []
  | b :: bs => (a, b) :: Memory.cellsAt (a + 1) bs

/-- BUF with the bytes `bs` at the indices from `a` on, every other index as it was. -/
def Memory.write (m : Memory) (a : Nat) (bs : List Byte) : Memory :=
  m.filter (fun c => decide (c.1 < a)) ++ Memory.cellsAt a bs ++ m.filter (fun c => decide (a + bs.length ≤ c.1))

/-- `BUF[i]` (00_scope.md R10). -/
def State.byteAt (s : State) (i : Nat) : Byte := Memory.read s.buf s.powerOn i

/-- `MemRead(a, n)`: the bytes `BUF[a..a+n)` (00_scope.md R11). -/
def State.memRead (s : State) (a n : Nat) : List Byte := (List.range n).map (fun k => s.byteAt (a + k))

/-- `MemWrite(a, n, bs)` with `n` the length of `bs` (00_scope.md R11). -/
def State.memWrite (s : State) (a : Nat) (bs : List Byte) : State := s.setBuf (Memory.write s.buf a bs)

/-- The range `[a, a+n)` is inside BUF, on integers, without wrap-around (20_memory.md R70). -/
abbrev InBuf (a n : Nat) : Prop := a + n ≤ Config.bufBytes

/-- The field of `n` bytes at `offset` is inside a record (43_field_mux.md R170). -/
abbrev InRecord (offset n : Nat) : Prop := offset + n ≤ Config.recBytes

/-- `BE16(b0, b1)`: two bytes as a big-endian unsigned value (00_scope.md R11). -/
def be16 (b0 b1 : Byte) : Nat := b0.toNat * 256 + b1.toNat

/-- The big-endian 16-bit value at index `i` of BUF (20_memory.md R62). -/
def State.be16At (s : State) (i : Nat) : Nat := be16 (s.byteAt i) (s.byteAt (i + 1))

/-! ## The ends of a command -/

/-- `done`: the command succeeded (60_exceptions.md R213). -/
def done (s : State) : Result := .next (s.setStatus (Status.succeed s.status))

/-- `raise e`: the command ends in error `e` and changes STATUS.ERR and STATUS.EF alone (60_exceptions.md R214). -/
def raise (e : ErrorKind) (s : State) : Result := .next (s.setStatus (Status.fail s.status e))

end Sys2Proof.Machine
end

