-- ==== Sys2Proof/Machine/Operands.lean ====
section
/-! DEFINITION. The operand forms of the commands: the range at A of length L, the destination at D, the record at RB
with an offset from the command word, the slices of W, and the fixed-field table. -/
namespace Sys2Proof.Machine

/-- The bytes `BUF[A..A+L)` of a range command (10_state.md R22, R23). -/
def State.rangeBytes (s : State) : List Byte := s.memRead s.a.toNat s.l.toNat

/-- The range of A and L is inside BUF (20_memory.md R70). -/
abbrev State.rangeInBuf (s : State) : Prop := InBuf s.a.toNat s.l.toNat

/-- The record window `BUF[RB..RB+REC_BYTES)` is inside BUF (43_field_mux.md R170). -/
abbrev State.recordInBuf (s : State) : Prop := InBuf s.rb.toNat Config.recBytes

/-- The index in BUF of a record offset: it is not scaled or shifted (30_encoding.md R83). -/
def State.recordIndex (s : State) (offset : Nat) : Nat := s.rb.toNat + offset

/-- `W[15:0]`, the checksum word CKADDW adds (10_state.md R26). -/
def State.wordOperand (s : State) : Half := s.w.extractLsb' 0 16

/-- `W[7:0]`, the character byte LUTB looks up (10_state.md R26). -/
def State.charOperand (s : State) : Byte := s.w.extractLsb' 0 8

/-- The width of a record field. -/
inductive FieldWidth where
  /-- One byte. -/
  | bits8
  /-- Two bytes, big-endian. -/
  | bits16
  deriving DecidableEq, Repr

/-- The number of bytes of a field. -/
def FieldWidth.bytes : FieldWidth → Nat
  | .bits8 => 1
  | .bits16 => 2

/-- The value of the record field at `offset`, zero-extended to 32 bits (43_field_mux.md R171, R172). -/
def State.recordField (s : State) (offset : Nat) : FieldWidth → Word
  | .bits8 => (s.byteAt (s.recordIndex offset)).setWidth 32
  | .bits16 => BitVec.ofNat 32 (s.be16At (s.recordIndex offset))

/-- The names of the fixed-field table (43_field_mux.md R174). -/
inductive FieldName where
  | rupees | deaths | hearts | health | cksum | slotidx
  deriving DecidableEq, Repr

/-- A row of the fixed-field table (43_field_mux.md R174). -/
structure FieldRow where
  /-- The field's name. -/
  name : FieldName
  /-- Its record offset. -/
  offset : Nat
  /-- Its width. -/
  width : FieldWidth
  deriving DecidableEq, Repr

/-- The fixed-field table, a read-only table indexed by selector (43_field_mux.md R174, 10_state.md R40). -/
def fieldTable : List FieldRow :=
  [⟨.rupees, Config.rupeesOff, .bits16⟩,
   ⟨.deaths, Config.deathsOff, .bits16⟩,
   ⟨.hearts, Config.heartsOff, .bits16⟩,
   ⟨.health, Config.healthOff, .bits16⟩,
   ⟨.cksum, Config.ckField, .bits16⟩,
   ⟨.slotidx, Config.slotField, .bits8⟩]

/-- `FIELD_TABLE[sel]`; none for a selector above 5 (43_field_mux.md R174). -/
def fieldRow (sel : Half) : Option FieldRow := fieldTable[sel.toNat]?

end Sys2Proof.Machine
end

