-- ==== Sys2Proof/Machine/Bsw.lean ====
section
/-! DEFINITION. BSW, the byte-swapper (40_byteswap.md). -/
namespace Sys2Proof.Machine

/-- `bswap32(v)` (00_scope.md R11). -/
def bswap32 (v : Word) : Word :=
  v.extractLsb' 0 8 ++ v.extractLsb' 8 8 ++ v.extractLsb' 16 8 ++ v.extractLsb' 24 8

/-- `swapseq(s)`: every group of 4 bytes reversed, groups counted from the first byte (40_byteswap.md R101). It is
defined for lengths that are multiples of 4 only; the one command that uses it checks this first (R102). -/
def swapseq : List Byte → List Byte
  | b0 :: b1 :: b2 :: b3 :: rest => b3 :: b2 :: b1 :: b0 :: swapseq rest
  | rest => rest

/-- SWAPW (40_byteswap.md R103). -/
def execSwapw (s : State) : Result := done (s.setR (bswap32 s.w))

/-- SWAPB (40_byteswap.md R104). -/
def execSwapb (s : State) : Result :=
  if ¬ s.rangeInBuf then raise .outOfRange s
  else if s.l.toNat % Config.swapGroup ≠ 0 then raise .malformedInput s
  else done (s.memWrite s.a.toNat (swapseq s.rangeBytes))

end Sys2Proof.Machine
end

