-- ==== Sys2Proof/Machine/Cks.lean ====
section
/-! DEFINITION. CKS, the checksum-16 accumulator (41_checksum.md). -/
namespace Sys2Proof.Machine

/-- The unbounded sum of the checksum words of a byte sequence; the dangling byte of an odd length is ignored
(41_checksum.md R120, R122). -/
def sumWords : List Byte → Nat
  | b0 :: b1 :: rest => be16 b0 b1 + sumWords rest
  | _ => 0

/-- `sum16(s)`: the sum masked to its low 16 bits (41_checksum.md R120). -/
def sum16 (bs : List Byte) : Half := BitVec.ofNat 16 (sumWords bs)

/-- The computed checksum of the record at RB, over its bytes `[0, CK_SPAN)` (41_checksum.md R127). -/
def State.recordSum (s : State) : Half := sum16 (s.memRead s.rb.toNat Config.ckSpan)

/-- The stored checksum of the record at RB (41_checksum.md R127). -/
def State.recordStored (s : State) : Half := BitVec.ofNat 16 (s.be16At (s.recordIndex Config.ckField))

/-- `x[ACC] <- v` and `x[R] <- zext_32(x[ACC])`, then `done`: how the accumulator commands end (41_checksum.md
R123-R126). -/
def accDone (v : Half) (s : State) : Result := done ((s.setAcc v).setR (v.setWidth 32))

/-- CKCLR (41_checksum.md R123). -/
def execCkclr (s : State) : Result := accDone 0 s

/-- CKADDW (41_checksum.md R124). -/
def execCkaddw (s : State) : Result := accDone (s.acc + s.wordOperand) s

/-- CKADD (41_checksum.md R125). -/
def execCkadd (s : State) : Result :=
  if ¬ s.rangeInBuf then raise .outOfRange s
  else accDone (s.acc + sum16 s.rangeBytes) s

/-- CKSUM (41_checksum.md R126). -/
def execCksum (s : State) : Result :=
  if ¬ s.rangeInBuf then raise .outOfRange s
  else accDone (sum16 s.rangeBytes) s

/-- What CKVER writes for the computed checksum `c` and the stored one `e`, then `done`: R is the stored one above the
computed one, and a difference is no error (41_checksum.md R127, R129). -/
def verifyDone (c e : Half) (s : State) : Result :=
  done ((((s.setAcc c).setExpected e).setR (e ++ c)).setStatus (Status.setVerdict s.status (decide (c ≠ e))))

/-- What CKWR writes for the computed checksum `c`, then `done`: the checksum field of the record at RB, big-endian,
ACC and R (41_checksum.md R131). -/
def storeChecksum (c : Half) (s : State) : Result :=
  accDone c (s.memWrite (s.recordIndex Config.ckField) [c.extractLsb' 8 8, c.extractLsb' 0 8])

/-- CKVER (41_checksum.md R127). -/
def execCkver (s : State) : Result :=
  if ¬ s.recordInBuf then raise .outOfRange s
  else verifyDone s.recordSum s.recordStored s

/-- CKWR (41_checksum.md R131). -/
def execCkwr (s : State) : Result :=
  if ¬ s.recordInBuf then raise .outOfRange s
  else storeChecksum s.recordSum s

end Sys2Proof.Machine
end

