-- ==== Sys2Proof/Machine/Control.lean ====
section
/-! DEFINITION. The control command (44_host_control.md). -/
namespace Sys2Proof.Machine

/-- NOP (44_host_control.md R196). -/
def execNop (s : State) : Result := done s

end Sys2Proof.Machine
end

