-- ==== Sys2Proof/Machine/Fmx.lean ====
section
/-! DEFINITION. FMX, the field multiplexer (43_field_mux.md). -/
namespace Sys2Proof.Machine

/-- The shared form of the FMX commands: the record window, then the field bound, then the read value to R
(43_field_mux.md R170). -/
def readRecord (offset n : Nat) (value : Word) (s : State) : Result :=
  if ¬ s.recordInBuf then raise .outOfRange s
  else if ¬ InRecord offset n then raise .outOfRange s
  else done (s.setR value)

/-- RD16 (43_field_mux.md R171). -/
def execRd16 (imm : Half) (s : State) : Result :=
  readRecord imm.toNat 2 (s.recordField imm.toNat .bits16) s

/-- RD8 (43_field_mux.md R172). -/
def execRd8 (imm : Half) (s : State) : Result :=
  readRecord imm.toNat 1 (s.recordField imm.toNat .bits8) s

/-- RDBIT (43_field_mux.md R173): R is 0 or 1; bit 0 is the least significant. -/
def execRdbit (imm : Half) (bit : BitVec 3) (s : State) : Result :=
  readRecord imm.toNat 1
    ((BitVec.ofBool ((s.byteAt (s.recordIndex imm.toNat)).getLsbD bit.toNat)).setWidth 32) s

/-- FLD (43_field_mux.md R175). A selector outside the table is an illegal command (R174, 30_encoding.md R86): no
command word decodes to one. -/
def execFld (sel : Half) (s : State) : Result :=
  match fieldRow sel with
  | none => raise .illegalCommand s
  | some row => readRecord row.offset row.width.bytes (s.recordField row.offset row.width) s

end Sys2Proof.Machine
end

