-- ==== Sys2Proof/Machine/Lut.lean ====
section
/-! DEFINITION. LUT, the character decoder (42_lut_text.md). -/
namespace Sys2Proof.Machine

/-- `LUT(b)`, the read-only character table: the output code of a byte, or none (42_lut_text.md R151-R153,
10_state.md R38, 90_conflicts.md C2). -/
def lut (b : Byte) : Option Byte :=
  let n := b.toNat
  if 1 ≤ n ∧ n ≤ 9 then some (b + 0x30#8)
  else if 171 ≤ n ∧ n ≤ 196 then some (b - 106#8)
  else if 197 ≤ n ∧ n ≤ 222 then some (b - 100#8)
  else if n = 223 then some 0x20#8
  else if n = 228 then some 0x2D#8
  else if n = 234 then some 0x2E#8
  else none

/-- `textdec(s)`: the output codes of the mapped bytes, in order (42_lut_text.md R154). -/
def textdec : List Byte → List Byte
  | [] => []
  | b :: bs =>
    match lut b with
    | none => textdec bs
    | some code => code :: textdec bs

/-- The text `t` written to BUF at D and its length to R, then `done`: how the text commands end (42_lut_text.md R156,
R157). No terminator is written. -/
def textDone (t : List Byte) (s : State) : Result :=
  done ((s.memWrite s.d.toNat t).setR (BitVec.ofNat 32 t.length))

/-- LUTB (42_lut_text.md R155): bit 8 of R marks a byte that emits. -/
def execLutb (s : State) : Result :=
  match lut s.charOperand with
  | none => done (s.setR 0)
  | some code => done (s.setR (0x100#32 + code.setWidth 32))

/-- TXTDEC (42_lut_text.md R156): the destination is checked for the length L before any byte is decoded. -/
def execTxtdec (s : State) : Result :=
  if ¬ s.rangeInBuf then raise .outOfRange s
  else if ¬ InBuf s.d.toNat s.l.toNat then raise .outOfRange s
  else textDone (textdec s.rangeBytes) s

/-- TXTNAME (42_lut_text.md R157). -/
def execTxtname (s : State) : Result :=
  if ¬ s.recordInBuf then raise .outOfRange s
  else if ¬ InBuf s.d.toNat Config.nameLen then raise .outOfRange s
  else textDone (textdec (s.memRead (s.recordIndex Config.nameOff) Config.nameLen)) s

end Sys2Proof.Machine
end

