-- ==== Sys2Proof/Machine/Dispatch.lean ====
section
/-! DEFINITION. The command map: one arm per row of the opcode table (30_encoding.md R85). -/
namespace Sys2Proof.Machine

/-- The rule of a command's mnemonic run on a state (44_host_control.md R195). -/
def exec (i : Instr) (s : State) : Host.Outcome State Fault Refusal :=
  match i with
  | .nop => Sys2Proof.Machine.execNop s
  | .swapw => Sys2Proof.Machine.execSwapw s
  | .swapb => Sys2Proof.Machine.execSwapb s
  | .ckclr => Sys2Proof.Machine.execCkclr s
  | .ckaddw => Sys2Proof.Machine.execCkaddw s
  | .ckadd => Sys2Proof.Machine.execCkadd s
  | .cksum => Sys2Proof.Machine.execCksum s
  | .ckver => Sys2Proof.Machine.execCkver s
  | .ckwr => Sys2Proof.Machine.execCkwr s
  | .lutb => Sys2Proof.Machine.execLutb s
  | .txtdec => Sys2Proof.Machine.execTxtdec s
  | .txtname => Sys2Proof.Machine.execTxtname s
  | .rd16 imm => Sys2Proof.Machine.execRd16 imm s
  | .rd8 imm => Sys2Proof.Machine.execRd8 imm s
  | .rdbit imm bit => Sys2Proof.Machine.execRdbit imm bit s
  | .fld sel => Sys2Proof.Machine.execFld sel s

end Sys2Proof.Machine
end

