-- ==== Sys2Proof/Machine/Interface.lean ====
section
/-! DEFINITION. The host interface (44_host_control.md): the register map, the five operations of the host, the window
of byte offsets, and the execution of a command word. -/
namespace Sys2Proof.Machine

/-! ## Commands (R195) -/

/-- `execute(c)`: decode, then the rule of the mnemonic; an illegal word raises IllegalCommand (44_host_control.md
R195, 30_encoding.md R86). -/
def execute (c : Word) (s : State) : Result :=
  match decode c with
  | .error _ => raise .illegalCommand s
  | .ok i => exec i s

/-! ## Register accesses (R191, R192, R197) -/

/-- RegWrite(r, v) (44_host_control.md R191, 10_state.md R45). -/
def regWrite (reg : Reg) (v : Word) (s : State) : Result :=
  match reg with
  | .cmd => execute v s
  | .status => .next (s.setStatus (Status.hostWrite s.status v))
  | .a => .next (s.setA (v.extractLsb' 0 16))
  | .l => .next (s.setL (v.extractLsb' 0 16))
  | .d => .next (s.setD (v.extractLsb' 0 16))
  | .rb => .next (s.setRb (v.extractLsb' 0 16))
  | .w => .next (s.setW v)
  | .r | .acc | .exp => .next s

/-- The value RegRead(r) returns (44_host_control.md R192, 10_state.md R45). -/
def regValue (reg : Reg) (s : State) : Word :=
  match reg with
  | .cmd => 0
  | .status => Status.hostRead s.status
  | .a => s.a.setWidth 32
  | .l => s.l.setWidth 32
  | .d => s.d.setWidth 32
  | .rb => s.rb.setWidth 32
  | .w => s.w
  | .r => s.r
  | .acc => s.acc.setWidth 32
  | .exp => s.expected.setWidth 32

/-- RegRead(r): no state changes but the response (R192). -/
def regRead (reg : Reg) (s : State) : Result := .next (s.setResponse (.word (regValue reg s)))

/-! ## Buffer accesses (R193, R194, R198) -/

/-- BufWrite(i, b). -/
def bufWrite (i : Nat) (b : Byte) (s : State) : Result :=
  if i < Config.bufBytes then .next (s.memWrite i [b]) else .refused (.bufferIndexOutOfRange i)

/-- BufRead(i): no state changes but the response; a byte nothing has written reads as its free draw. -/
def bufRead (i : Nat) (s : State) : Result :=
  if i < Config.bufBytes then .next (s.setResponse (.byte (s.byteAt i))) else .refused (.bufferIndexOutOfRange i)

/-! ## Reset (70_reset_and_hazards.md R240) -/

/-- Reset: every register takes its value of 10_state.md R43; BUF keeps its bytes and its draws (R241). -/
def resetState (s : State) : State :=
  { s with a := 0, l := 0, d := 0, rb := 0, w := 0, r := 0, acc := 0, expected := 0, status := 0 }

/-! ## The host window (10_state.md R44) -/

/-- What a window offset reaches. -/
inductive WindowTarget where
  /-- A register at its own offset. -/
  | reg (reg : Reg)
  /-- An offset of 0x0028-0x7FFF. -/
  | reserved
  /-- An offset of 0x8000-0xFFFF: an index of BUF. -/
  | buf (i : Nat)
  /-- An offset below 0x0028 that is no register's own. -/
  | noRegister
  deriving DecidableEq, Repr

/-- The register map (10_state.md R44). -/
def windowTarget (offset : BitVec 16) : WindowTarget :=
  let n := offset.toNat
  if 0x8000 ≤ n then .buf (n - 0x8000)
  else if 0x0028 ≤ n then .reserved
  else
    match n with
    | 0x0000 => .reg .cmd
    | 0x0004 => .reg .status
    | 0x0008 => .reg .a
    | 0x000C => .reg .l
    | 0x0010 => .reg .d
    | 0x0014 => .reg .rb
    | 0x0018 => .reg .w
    | 0x001C => .reg .r
    | 0x0020 => .reg .acc
    | 0x0024 => .reg .exp
    | _ => .noRegister

/-- A write of `v` at a window offset, `width` bits wide (10_state.md R44, R45, 44_host_control.md R198). Log entry 4. -/
def windowWrite (offset : BitVec 16) (width : Nat) (v : Word) (s : State) : Result :=
  match windowTarget offset with
  | .buf i => if width = 8 then bufWrite i (v.extractLsb' 0 8) s else .refused (.bufferAccessWidth width)
  | .reg x => if width = 32 then regWrite x v s else .refused (.registerAccessWidth width)
  | .reserved => if width = 32 then .next s else .refused (.registerAccessWidth width)
  | .noRegister =>
    if width = 32 then .refused (.noRegisterAtOffset offset) else .refused (.registerAccessWidth width)

/-- A read at a window offset, `width` bits wide (10_state.md R44, R45, 44_host_control.md R198). Log entry 4. -/
def windowRead (offset : BitVec 16) (width : Nat) (s : State) : Result :=
  match windowTarget offset with
  | .buf i => if width = 8 then bufRead i s else .refused (.bufferAccessWidth width)
  | .reg x => if width = 32 then regRead x s else .refused (.registerAccessWidth width)
  | .reserved => if width = 32 then .next (s.setResponse (.word 0)) else .refused (.registerAccessWidth width)
  | .noRegister =>
    if width = 32 then .refused (.noRegisterAtOffset offset) else .refused (.registerAccessWidth width)

/-! ## One operation of the host (R190) -/

/-- The state in which the host's next operation is performed: that operation is taken from the script, and nothing
has answered it yet. -/
def State.begin (s : State) (rest : List HostOp) : State := (s.setScript rest).setResponse .none

/-- One operation of the host. -/
def performOp (op : HostOp) (s : State) : Result :=
  match op with
  | .regWrite reg v => regWrite reg v s
  | .regRead reg => regRead reg s
  | .bufWrite i b => bufWrite i b s
  | .bufRead i => bufRead i s
  | .reset => .next (resetState s)
  | .windowWrite offset width v => windowWrite offset width v s
  | .windowRead offset width => windowRead offset width s

/-- The host's next operation; where it performs none, the block keeps its state. Log entries 1 and 3. -/
def performNext (s : State) : Result :=
  match s.script with
  | [] => .next s
  | op :: rest => performOp op (s.begin rest)

/-- `s` with the host about to write the command word `w` to CMD: the block's whole "fetch" is that write (10_state.md
R30, R31). Bits at `nbits` and above are 0. -/
def placeCommand (s : State) (nbits w : Nat) : State :=
  s.setScript (.regWrite .cmd (BitVec.ofNat 32 (w % 2 ^ nbits)) :: s.script)

end Sys2Proof.Machine
end

