-- ==== Sys2Proof/Machine/Step.lean ====
section
/-! DEFINITION. One step of the model: one operation of the host (44_host_control.md R190), a whole command when that
operation writes CMD (70_reset_and_hazards.md R250). -/
namespace Sys2Proof.Machine

/-- One step. -/
def step (s : State) : Host.Outcome State Fault Refusal := performNext s

/-- `s` with the command word `w` placed where the next step takes its command from: the host's next operation is a
RegWrite of it to CMD. Log entry 1. -/
def State.withFetchWord (s : State) (nbits w : Nat) : State := placeCommand s nbits w

end Sys2Proof.Machine
end

