-- ==== Sys2Proof/Machine/Asm.lean ====
section
/-! DEFINITION. The assembler syntax of one command (30_encoding.md R90). White space around a token and the case of
hexadecimal digits are not stated by R90: log entry 7. No step of the block reads this file: it is the notation the
host's programs are written in. -/
namespace Sys2Proof.Machine

/-- What one line of assembler text gives. -/
inductive AsmLine where
  /-- A line with no command: empty, or a comment alone. -/
  | blank
  /-- One command. -/
  | command (i : Instr)
  /-- The assembler refuses the line. -/
  | refused
  deriving DecidableEq, Repr

/-- An operand: a number, or a field name of 43_field_mux.md R174. -/
inductive AsmOperand where
  /-- A decimal or hexadecimal number. -/
  | number (n : Nat)
  /-- A field name. -/
  | field (f : FieldName)
  deriving DecidableEq, Repr

/-- A space or a tab. -/
def asmBlank (c : Char) : Bool := c == ' ' || c == '\t'

/-- A text without the white space at its two ends. -/
def asmTrim (cs : List Char) : List Char := ((cs.dropWhile asmBlank).reverse.dropWhile asmBlank).reverse

/-- A line without its comment, which runs from a semicolon to the end of the line. -/
def asmStripComment (cs : List Char) : List Char := cs.takeWhile (fun c => !(c == ';'))

/-- The pieces of a text between its commas. -/
def asmSplitCommas : List Char → List (List Char)
  | [] => [[]]
  | c :: cs =>
    match asmSplitCommas cs with
    | [] => [[c]]
    | piece :: pieces => if c == ',' then [] :: piece :: pieces else (c :: piece) :: pieces

/-- The value of a digit of a base up to 16. -/
def asmDigit (base : Nat) (c : Char) : Option Nat :=
  let n := c.toNat
  let v :=
    if '0'.toNat ≤ n ∧ n ≤ '9'.toNat then some (n - '0'.toNat)
    else if 'a'.toNat ≤ n ∧ n ≤ 'f'.toNat then some (n - 'a'.toNat + 10)
    else if 'A'.toNat ≤ n ∧ n ≤ 'F'.toNat then some (n - 'A'.toNat + 10)
    else none
  v.filter (fun d => decide (d < base))

/-- The value of digits, the most significant first, after the digits of value `n`. -/
def asmDigits (base n : Nat) : List Char → Option Nat
  | [] => some n
  | c :: cs =>
    match asmDigit base c with
    | none => none
    | some d => asmDigits base (n * base + d) cs

/-- A number: decimal, or hexadecimal with the prefix 0x (R90). -/
def asmNumber : List Char → Option Nat
  | [] => none
  | '0' :: 'x' :: [] => none
  | '0' :: 'x' :: c :: cs => asmDigits 16 0 (c :: cs)
  | cs => asmDigits 10 0 cs

/-- The spelling of a field name (43_field_mux.md R174). -/
def asmFieldText : FieldName → String
  | .rupees => "RUPEES"
  | .deaths => "DEATHS"
  | .hearts => "HEARTS"
  | .health => "HEALTH"
  | .cksum => "CKSUM"
  | .slotidx => "SLOTIDX"

/-- The selector of a field name: its place in the fixed-field table (R174). -/
def asmSelector (f : FieldName) : Nat := (fieldTable.map FieldRow.name).idxOf f

/-- The field a text names. -/
def asmField (cs : List Char) : Option FieldName :=
  (fieldTable.map FieldRow.name).find? (fun f => (asmFieldText f).toList == cs)

/-- An operand. -/
def asmOperand (cs : List Char) : Option AsmOperand :=
  match asmField cs with
  | some f => some (.field f)
  | none => (asmNumber cs).map .number

/-- The operands of a command: none, or texts separated by commas. -/
def asmOperands (cs : List Char) : Option (List AsmOperand) :=
  if (asmTrim cs).isEmpty then some []
  else (asmSplitCommas cs).mapM (fun piece => asmOperand (asmTrim piece))

/-- The spelling of a mnemonic (30_encoding.md R85). -/
def asmMnemonicText : Opcode → String
  | .nop => "NOP"
  | .swapw => "SWAPW"
  | .swapb => "SWAPB"
  | .ckclr => "CKCLR"
  | .ckaddw => "CKADDW"
  | .ckadd => "CKADD"
  | .cksum => "CKSUM"
  | .ckver => "CKVER"
  | .ckwr => "CKWR"
  | .lutb => "LUTB"
  | .txtdec => "TXTDEC"
  | .txtname => "TXTNAME"
  | .rd16 => "RD16"
  | .rd8 => "RD8"
  | .rdbit => "RDBIT"
  | .fld => "FLD"

/-- The mnemonic a text spells. -/
def asmMnemonic (cs : List Char) : Option Opcode :=
  [Opcode.nop, .swapw, .swapb, .ckclr, .ckaddw, .ckadd, .cksum, .ckver, .ckwr, .lutb, .txtdec, .txtname, .rd16, .rd8,
    .rdbit, .fld].find? (fun m => (asmMnemonicText m).toList == cs)

/-- The command of a mnemonic and its operands: an offset fits in 16 bits and a bit index in 3 bits, and any other
value is refused (R90). -/
def asmCommand (m : Opcode) (ops : List AsmOperand) : Option Instr :=
  match opcodeFormat m, ops with
  | .f0, [] => some (instrOf m 0 0)
  | .fi, [.number n] => if n < 2 ^ 16 then some (instrOf m (BitVec.ofNat 16 n) 0) else none
  | .fib, [.number n, .number k] =>
    if n < 2 ^ 16 ∧ k < 2 ^ 3 then some (instrOf m (BitVec.ofNat 16 n) (BitVec.ofNat 3 k)) else none
  | .fs, [.number n] => if n < 2 ^ 16 then some (instrOf m (BitVec.ofNat 16 n) 0) else none
  | .fs, [.field f] => some (instrOf m (BitVec.ofNat 16 (asmSelector f)) 0)
  | _, _ => none

/-- One line of assembler text (R90). -/
def asmLine (cs : List Char) : AsmLine :=
  let text := asmTrim (asmStripComment cs)
  if text.isEmpty then .blank
  else
    match asmMnemonic (text.takeWhile (fun c => !asmBlank c)), asmOperands (text.dropWhile (fun c => !asmBlank c)) with
    | some m, some ops =>
      match asmCommand m ops with
      | some i => .command i
      | none => .refused
    | _, _ => .refused

end Sys2Proof.Machine
end

