-- ==== Sys2Proof/Machine/HostProgram.lean ====
section
/-! DEFINITION. The spellings of host operations and pseudo-commands (30_encoding.md R91) as lists of the host's
operations, and the container layout a host keeps in BUF (20_memory.md R64, informative; 41_checksum.md R128;
70_reset_and_hazards.md R245). No step of the block reads the layout. -/
namespace Sys2Proof.Machine

/-! ## Host operations and pseudo-commands (R91) -/

/-- The registers `SET` names (R91). -/
inductive OperandReg where
  | a | l | d | rb | w
  deriving DecidableEq, Repr

/-- The register of an operand register's name. -/
def operandReg : OperandReg → Reg
  | .a => .a
  | .l => .l
  | .d => .d
  | .rb => .rb
  | .w => .w

/-- `SET reg, v`. -/
def hostSet (reg : OperandReg) (v : Word) : List HostOp := [.regWrite (operandReg reg) v]

/-- `GET reg`. -/
def hostGet (reg : Reg) : List HostOp := [.regRead reg]

/-- `POKE i, b0, b1, ...`. -/
def hostPoke (i : Nat) : List Byte → List HostOp
  | [] => []
  | b :: bs => .bufWrite i b :: hostPoke (i + 1) bs

/-- `PEEK i, n`. -/
def hostPeek (i n : Nat) : List HostOp := (List.range n).map (fun k => .bufRead (i + k))

/-- `CLRST`: clears EF and MMS. -/
def hostClrst : List HostOp := [.regWrite .status 0x28#32]

/-- `CMD <- w`, a raw command word, legal or not. -/
def hostCmd (w : Word) : List HostOp := [.regWrite .cmd w]

/-- A mnemonic of R85 with its operands. -/
def hostCommand (i : Instr) : List HostOp := [.regWrite .cmd (encode i)]

/-- `SWAPRANGE a, l`. -/
def hostSwaprange (a l : Word) : List HostOp := hostSet .a a ++ hostSet .l l ++ hostCommand .swapb

/-- `CKRANGE a, l`. -/
def hostCkrange (a l : Word) : List HostOp := hostSet .a a ++ hostSet .l l ++ hostCommand .cksum

/-- `VERIFY rb`. -/
def hostVerify (rb : Word) : List HostOp := hostSet .rb rb ++ hostCommand .ckver

/-- `FIXSUM rb`. -/
def hostFixsum (rb : Word) : List HostOp := hostSet .rb rb ++ hostCommand .ckwr

/-- `DECODE a, l, d`. -/
def hostDecode (a l d : Word) : List HostOp := hostSet .a a ++ hostSet .l l ++ hostSet .d d ++ hostCommand .txtdec

/-- `DECNAME rb, d`. -/
def hostDecname (rb d : Word) : List HostOp := hostSet .rb rb ++ hostSet .d d ++ hostCommand .txtname

/-! ## The container layout (20_memory.md R64) -/

/-- The lengths of the 8 chunks, in order. -/
def chunkLengths : List Nat := [32, 5200, 5200, 5200, 5200, 5200, 5200, 1536]

/-- The first index of chunk `k` in a container at BUF[0]: the sum of the lengths before it. -/
def chunkStart (k : Nat) : Nat := (chunkLengths.take k).sum

/-- The length of chunk `k`. -/
def chunkLength (k : Nat) : Nat := chunkLengths.getD k 0

/-- Whether a record is a primary slot or a backup copy (41_checksum.md R128). -/
inductive RecordRole where
  | file | backup
  deriving DecidableEq, Repr

/-- How a host names the record at RB for a container at BUF[0]: its role and its slot number (41_checksum.md R128). -/
def recordIdentity (rb : Half) : Option (RecordRole × Nat) :=
  match rb.toNat with
  | 0x0020 => some (.file, 1)
  | 0x1470 => some (.file, 2)
  | 0x28C0 => some (.file, 3)
  | 0x3D10 => some (.backup, 1)
  | 0x5160 => some (.backup, 2)
  | 0x65B0 => some (.backup, 3)
  | _ => none

/-- The header template, in I-order (70_reset_and_hazards.md R245). -/
def headerTemplate : List Byte :=
  [0x00#8, 0x00#8, 0x00#8, 0x98#8, 0x09#8, 0x10#8, 0x21#8, 0x5A#8, 0x45#8, 0x4C#8, 0x44#8, 0x41#8,
   0x00#8, 0x00#8, 0x00#8, 0x00#8] ++ List.replicate 16 0x00#8

/-- The operations by which a host builds a blank container in BUF (70_reset_and_hazards.md R245). -/
def hostBlankContainer : List HostOp := hostPoke 0 headerTemplate ++ hostPoke 32 (List.replicate 32736 0x00#8)

end Sys2Proof.Machine
end

