-- ==== Sys2Proof/Safety.lean ====
section
/-! DEFINITION. What claims are stated in: the invariant of the state, the accesses the spec refuses, and what "nothing
else changes" means. -/
namespace Sys2Proof.Machine

/-! ## The invariant and safe steps -/

/-- BUF keeps its canonical form, the reserved bits of STATUS are 0 (10_state.md R37), and ERR is 0 to 3
(10_state.md R32: 4-7 are never produced). -/
structure State.Inv (s : State) : Prop where
  /-- BUF's canonical form. -/
  bufWf : s.buf.wf
  /-- Bits 31:6 of STATUS. -/
  reservedZero : Status.reserved s.status = 0
  /-- ERR is one of the four codes. -/
  errLegal : (Status.err s.status).toNat ≤ 3

/-- The host operations that have no step. The spec refuses a buffer index of `BUF_BYTES` or above, a register access
narrower than 32 bits and a BUF access wider than 8 bits (44_host_control.md R198). The model's choice (log entry 4): the
other widths that 10_state.md R44 does not give, and the offsets below 0x0028 that are no register's own. -/
def HostOp.refusedBySpec : HostOp → Bool
  | .bufWrite i _ | .bufRead i => decide (Config.bufBytes ≤ i)
  | .windowWrite offset width _ | .windowRead offset width =>
    match windowTarget offset with
    | .buf _ => decide (width ≠ 8)
    | .reg _ | .reserved => decide (width ≠ 32)
    | .noRegister => true
  | .regWrite _ _ | .regRead _ | .reset => false

/-- The step from `s` completes. -/
def State.Safe (s : State) : Prop := ∃ t, step s = .next t

/-- The host operation names register `reg` in a write of `v`: by its name, or by its window offset
(44_host_control.md R190). -/
def HostOp.writesReg (op : HostOp) (reg : Reg) (v : Word) : Prop :=
  op = .regWrite reg v ∨ ∃ offset, windowTarget offset = .reg reg ∧ op = .windowWrite offset 32 v

/-! ## Frames -/

/-- The operand registers A, L, D, RB, W are as before (10_state.md R21). -/
structure SameOperands (s t : State) : Prop where
  a : t.a = s.a
  l : t.l = s.l
  d : t.d = s.d
  rb : t.rb = s.rb
  w : t.w = s.w

/-- The model's own fields are as before: a command performs no operation of the host and answers nothing. -/
structure SameHost (s t : State) : Prop where
  powerOn : t.powerOn = s.powerOn
  script : t.script = s.script
  response : t.response = s.response

/-- Every byte of BUF reads as before. -/
def SameBytes (s t : State) : Prop := ∀ i, t.byteAt i = s.byteAt i

/-- Every byte of BUF outside `[a, a+n)` reads as before. -/
def SameBytesOutside (a n : Nat) (s t : State) : Prop := ∀ i, i < a ∨ a + n ≤ i → t.byteAt i = s.byteAt i

/-- STATUS after a success: ERR is 0 and every other bit is as before (60_exceptions.md R213). -/
def StatusDone (s t : State) : Prop :=
  Status.err t.status = 0 ∧ ∀ k, 3 ≤ k → t.status.getLsbD k = s.status.getLsbD k

/-- The end of a command in an error with code `code`: STATUS.ERR holds the code, STATUS.EF is 1, every other bit of
STATUS and everything else in the state is as before (60_exceptions.md R214). -/
def ErrorOnly (code : BitVec 3) (s t : State) : Prop :=
  Status.err t.status = code ∧ Status.ef t.status = true ∧ (∀ k, 4 ≤ k → t.status.getLsbD k = s.status.getLsbD k) ∧
    t = { s with status := t.status }

/-- A command that answers only through R and STATUS.ERR: it succeeded, R holds `v`, and everything else in the state
is as before (43_field_mux.md R178). -/
def ResultOnly (v : Word) (s t : State) : Prop :=
  t.r = v ∧ StatusDone s t ∧ t = { s with r := t.r, status := t.status }

/-- A command that answers through ACC, R and STATUS.ERR: it succeeded, ACC holds `v` and R its zero extension, and
everything else in the state is as before (41_checksum.md R123-R126). -/
def AccOnly (v : Half) (s t : State) : Prop :=
  t.acc = v ∧ t.r = v.setWidth 32 ∧ StatusDone s t ∧ t = { s with acc := t.acc, r := t.r, status := t.status }

/-! ## What the rules say in their own terms -/

/-- The opcodes of the opcode map (30_encoding.md R85). -/
def assignedOpcodes : List Nat :=
  [0x00, 0x10, 0x11, 0x20, 0x21, 0x22, 0x23, 0x24, 0x25, 0x30, 0x31, 0x32, 0x40, 0x41, 0x42, 0x43]

/-- A command word is illegal: the five conditions of 30_encoding.md R86, written over the word as a number (bits 7:0
are OPC, 10:8 BIT, 15:11 RSV, 31:16 IMM). -/
abbrev IllegalWord (c : Word) : Prop :=
  let opc := c.toNat % 2 ^ 8
  let bit := c.toNat / 2 ^ 8 % 2 ^ 3
  let rsv := c.toNat / 2 ^ 11 % 2 ^ 5
  let imm := c.toNat / 2 ^ 16
  opc ∉ assignedOpcodes ∨ rsv ≠ 0 ∨ (opc ≠ 0x42 ∧ bit ≠ 0) ∨ (opc ∉ [0x40, 0x41, 0x42, 0x43] ∧ imm ≠ 0) ∨
    (opc = 0x43 ∧ 5 < imm)

/-- The unbounded sum of the big-endian words of the `n` bytes of BUF at `a`, an odd last byte left out (41_checksum.md
R120). -/
def State.wordSum (s : State) (a n : Nat) : Nat :=
  ((List.range (n / 2)).map (fun k => (s.byteAt (a + 2 * k)).toNat * 256 + (s.byteAt (a + 2 * k + 1)).toNat)).sum

/-- The codes the character table gives for the `n` bytes of BUF at `a`, in order, unmapped bytes left out
(42_lut_text.md R154). -/
def State.codes (s : State) (a n : Nat) : List Byte := (List.range n).filterMap (fun k => lut (s.byteAt (a + k)))

end Sys2Proof.Machine
end

