-- ==== Sys2Proof/Certificates/Slice0/Obligations.lean ====
section
/-! DEFINITION. The statements about the block, one `def Obligations.<Name> : Prop` each. -/

open Sys2Proof Sys2Proof.Machine

/-! ## Encoding -/

/-- O1. Words written out from the patterns of 30_encoding.md R85 decode to their commands, and reserved ones are
rejected (R86, R87). -/
def Obligations.DecodesTheWordsOfTheOpcodeMap : Prop :=
  decode 0x00000000#32 = .ok .nop ∧ decode 0x00000010#32 = .ok .swapw ∧ decode 0x00000011#32 = .ok .swapb ∧
    decode 0x00000024#32 = .ok .ckver ∧ decode 0x00000031#32 = .ok .txtdec ∧
    decode 0x00340040#32 = .ok (.rd16 0x34#16) ∧ decode 0x00A50342#32 = .ok (.rdbit 0xA5#16 3#3) ∧
    decode 0x00020043#32 = .ok (.fld 2#16) ∧ decode 0x00000001#32 = .error .unassignedOpcode ∧
    decode 0x00000810#32 = .error .reservedNotZero ∧ decode 0x00000111#32 = .error .unusedBitNotZero ∧
    decode 0x00010010#32 = .error .unusedImmNotZero ∧ decode 0x00060043#32 = .error .selectorNotInTable

/-- O2. Decoding the word of a well-formed command gives that command back, with every operand at every value its
field admits (30_encoding.md R81, R82, R85, R88). -/
def Obligations.DecodeOfEncodeIsTheCommand : Prop :=
  ∀ i : Instr, i.wellFormed = true → decode (encode i) = .ok i

/-- O3. A word that decodes is the one word of its command: every legal word has one meaning and no bit of it is
dropped (30_encoding.md R82, R88). -/
def Obligations.EncodeOfDecodeIsTheWord : Prop :=
  ∀ (c : Word) (i : Instr), decode c = .ok i → i.wellFormed = true ∧ encode i = c

/-- O4. The decoder rejects exactly the words of 30_encoding.md R86's five conditions, and such a word executes no
operation: it raises IllegalCommand, STATUS.ERR becomes 3, STATUS.EF becomes 1, and nothing else changes. -/
def Obligations.IllegalWordsRaiseIllegalCommand : Prop :=
  (∀ c : Word, (∃ e, decode c = .error e) ↔ IllegalWord c) ∧
    ∀ (c : Word) (s : State), IllegalWord c → ∃ t, execute c s = .next t ∧ ErrorOnly 3#3 s t

/-! ## The step -/

/-- O5. Where the host's next operation is a 32-bit write to CMD, by name or by window offset, of a word that decodes
to a command, the step is that command run on the state with that operation taken from the host's script (44_host_control.md
R195, 10_state.md R31). -/
def Obligations.StepRunsTheDecodedCommand : Prop :=
  ∀ (s : State) (op : HostOp) (rest : List HostOp) (c : Word) (i : Instr),
    s.script = op :: rest → op.writesReg .cmd c → decode c = .ok i → step s = exec i (s.begin rest)

/-- O6. Where that word is illegal, the step raises IllegalCommand (44_host_control.md R195, 30_encoding.md R86). -/
def Obligations.StepRaisesIllegalCommand : Prop :=
  ∀ (s : State) (op : HostOp) (rest : List HostOp) (c : Word),
    s.script = op :: rest → op.writesReg .cmd c → IllegalWord c →
      ∃ t, step s = .next t ∧ ErrorOnly 3#3 (s.begin rest) t

/-! ## The commands: what each does on every state -/

/-- O7. NOP (44_host_control.md R196): it completes on every state, ERR becomes 0 and nothing else changes; the word 0
is NOP and any other word with OPC 0x00 is illegal. -/
def Obligations.NopClearsErrAlone : Prop :=
  encode .nop = 0x00000000#32 ∧
    (∀ c : Word, c.toNat % 256 = 0 → c ≠ 0 → ∃ e, decode c = .error e) ∧
    ∀ s : State, ∃ t, exec .nop s = .next t ∧ StatusDone s t ∧ t = { s with status := t.status }

/-- O8. SWAPW (40_byteswap.md R103): it completes on every state; R is W with its bytes reversed. -/
def Obligations.SwapwReversesTheWord : Prop :=
  encode .swapw = 0x00000010#32 ∧
    ∀ s : State, ∃ t, exec .swapw s = .next t ∧
      t.r.toNat = s.w.toNat % 256 * 2 ^ 24 + s.w.toNat / 2 ^ 8 % 256 * 2 ^ 16 + s.w.toNat / 2 ^ 16 % 256 * 2 ^ 8
        + s.w.toNat / 2 ^ 24 ∧
      StatusDone s t ∧ t = { s with r := t.r, status := t.status }

/-- O9. SWAPB (40_byteswap.md R104): out of range, a length that is no multiple of 4, and otherwise every 4-byte group
reversed in place, groups counted from A, every other byte and every register kept. -/
def Obligations.SwapbReversesEveryGroup : Prop :=
  encode .swapb = 0x00000011#32 ∧
    (∀ s : State, 32768 < s.a.toNat + s.l.toNat → ∃ t, exec .swapb s = .next t ∧ ErrorOnly 2#3 s t) ∧
    (∀ s : State, s.a.toNat + s.l.toNat ≤ 32768 → s.l.toNat % 4 ≠ 0 →
      ∃ t, exec .swapb s = .next t ∧ ErrorOnly 1#3 s t) ∧
    ∀ s : State, s.a.toNat + s.l.toNat ≤ 32768 → s.l.toNat % 4 = 0 →
      ∃ t, exec .swapb s = .next t ∧
        (∀ k j, 4 * k < s.l.toNat → j < 4 →
          t.byteAt (s.a.toNat + (4 * k + j)) = s.byteAt (s.a.toNat + (4 * k + 3 - j))) ∧
        SameBytesOutside s.a.toNat s.l.toNat s t ∧ StatusDone s t ∧ t = { s with buf := t.buf, status := t.status }

/-- O10. CKCLR (41_checksum.md R123): it completes on every state; ACC and R become 0. -/
def Obligations.CkclrClearsTheAccumulator : Prop :=
  encode .ckclr = 0x00000020#32 ∧ ∀ s : State, ∃ t, exec .ckclr s = .next t ∧ AccOnly 0 s t

/-- O11. CKADDW (41_checksum.md R124): it completes on every state; ACC becomes ACC + W[15:0] modulo 2^16 and R its
zero extension. -/
def Obligations.CkaddwAddsTheLowHalfOfW : Prop :=
  encode .ckaddw = 0x00000021#32 ∧
    ∀ s : State, ∃ t, exec .ckaddw s = .next t ∧
      t.acc.toNat = (s.acc.toNat + s.w.toNat % 2 ^ 16) % 2 ^ 16 ∧ t.r.toNat = t.acc.toNat ∧
      StatusDone s t ∧ t = { s with acc := t.acc, r := t.r, status := t.status }

/-- O12. CKADD (41_checksum.md R125): out of range, and otherwise ACC becomes ACC plus the sum of the range's
big-endian words modulo 2^16. -/
def Obligations.CkaddAddsTheRange : Prop :=
  encode .ckadd = 0x00000022#32 ∧
    (∀ s : State, 32768 < s.a.toNat + s.l.toNat → ∃ t, exec .ckadd s = .next t ∧ ErrorOnly 2#3 s t) ∧
    ∀ s : State, s.a.toNat + s.l.toNat ≤ 32768 →
      ∃ t, exec .ckadd s = .next t ∧
        t.acc.toNat = (s.acc.toNat + s.wordSum s.a.toNat s.l.toNat) % 2 ^ 16 ∧ t.r.toNat = t.acc.toNat ∧
        StatusDone s t ∧ t = { s with acc := t.acc, r := t.r, status := t.status }

/-- O13. CKSUM (41_checksum.md R126): out of range with ACC kept, and otherwise ACC becomes the sum of the range's
big-endian words modulo 2^16, which is what CKCLR followed by CKADD gives. -/
def Obligations.CksumComputesTheRange : Prop :=
  encode .cksum = 0x00000023#32 ∧
    (∀ s : State, 32768 < s.a.toNat + s.l.toNat → ∃ t, exec .cksum s = .next t ∧ ErrorOnly 2#3 s t) ∧
    ∀ s : State, s.a.toNat + s.l.toNat ≤ 32768 →
      ∃ t u, exec .cksum s = .next t ∧
        t.acc.toNat = s.wordSum s.a.toNat s.l.toNat % 2 ^ 16 ∧ t.r.toNat = t.acc.toNat ∧
        StatusDone s t ∧ t = { s with acc := t.acc, r := t.r, status := t.status } ∧
        exec .ckclr s = .next u ∧ exec .ckadd u = .next t

/-- O14. CKVER (41_checksum.md R127): out of range, and otherwise ACC is the computed checksum, EXP the stored one, R
both, MM the verdict, MMS set on a mismatch, ERR 0 in both cases, and everything else kept. -/
def Obligations.CkverVerifiesTheRecord : Prop :=
  encode .ckver = 0x00000024#32 ∧
    (∀ s : State, 32768 < s.rb.toNat + 5200 → ∃ t, exec .ckver s = .next t ∧ ErrorOnly 2#3 s t) ∧
    ∀ s : State, s.rb.toNat + 5200 ≤ 32768 →
      ∃ t, exec .ckver s = .next t ∧
        t.acc.toNat = s.wordSum s.rb.toNat 0x1352 % 2 ^ 16 ∧
        t.expected.toNat =
          (s.byteAt (s.rb.toNat + 0x1352)).toNat * 256 + (s.byteAt (s.rb.toNat + 0x1353)).toNat ∧
        t.r.toNat = t.expected.toNat * 2 ^ 16 + t.acc.toNat ∧
        (Status.mm t.status = true ↔ t.acc ≠ t.expected) ∧
        (Status.mms t.status = true ↔ (t.acc ≠ t.expected ∨ Status.mms s.status = true)) ∧
        Status.err t.status = 0 ∧ Status.ef t.status = Status.ef s.status ∧
        (∀ k, 6 ≤ k → t.status.getLsbD k = s.status.getLsbD k) ∧
        t = { s with acc := t.acc, expected := t.expected, r := t.r, status := t.status }

/-- O15. CKWR (41_checksum.md R131): out of range, and otherwise the computed checksum goes big-endian to the two bytes
at RB + 0x1352, to ACC and to R; every other byte and register is kept. -/
def Obligations.CkwrStoresTheChecksum : Prop :=
  encode .ckwr = 0x00000025#32 ∧
    (∀ s : State, 32768 < s.rb.toNat + 5200 → ∃ t, exec .ckwr s = .next t ∧ ErrorOnly 2#3 s t) ∧
    ∀ s : State, s.rb.toNat + 5200 ≤ 32768 →
      ∃ t, exec .ckwr s = .next t ∧
        t.acc.toNat = s.wordSum s.rb.toNat 0x1352 % 2 ^ 16 ∧ t.r.toNat = t.acc.toNat ∧
        (t.byteAt (s.rb.toNat + 0x1352)).toNat = t.acc.toNat / 256 ∧
        (t.byteAt (s.rb.toNat + 0x1353)).toNat = t.acc.toNat % 256 ∧
        SameBytesOutside (s.rb.toNat + 0x1352) 2 s t ∧ StatusDone s t ∧
        t = { s with acc := t.acc, r := t.r, buf := t.buf, status := t.status }

/-- O16. The character table (42_lut_text.md R151): every entry. -/
def Obligations.LutIsTheCharacterTable : Prop :=
  ∀ b : Byte,
    (b.toNat = 0 → lut b = none) ∧
    (1 ≤ b.toNat → b.toNat ≤ 9 → lut b = some (BitVec.ofNat 8 (b.toNat + 0x30))) ∧
    (10 ≤ b.toNat → b.toNat ≤ 170 → lut b = none) ∧
    (171 ≤ b.toNat → b.toNat ≤ 196 → lut b = some (BitVec.ofNat 8 (b.toNat - 106))) ∧
    (197 ≤ b.toNat → b.toNat ≤ 222 → lut b = some (BitVec.ofNat 8 (b.toNat - 100))) ∧
    (b.toNat = 223 → lut b = some 0x20#8) ∧
    (224 ≤ b.toNat → b.toNat ≤ 227 → lut b = none) ∧
    (b.toNat = 228 → lut b = some 0x2D#8) ∧
    (229 ≤ b.toNat → b.toNat ≤ 233 → lut b = none) ∧
    (b.toNat = 234 → lut b = some 0x2E#8) ∧
    (235 ≤ b.toNat → lut b = none)

/-- O17. LUTB (42_lut_text.md R155): it completes on every state; R is 0 for a byte W[7:0] that emits nothing, and
0x100 plus the output code for one that emits. -/
def Obligations.LutbLooksUpTheByte : Prop :=
  encode .lutb = 0x00000030#32 ∧
    ∀ s : State, ∃ t, exec .lutb s = .next t ∧
      (lut (BitVec.ofNat 8 (s.w.toNat % 256)) = none → t.r = 0) ∧
      (∀ code, lut (BitVec.ofNat 8 (s.w.toNat % 256)) = some code → t.r.toNat = 0x100 + code.toNat) ∧
      StatusDone s t ∧ t = { s with r := t.r, status := t.status }

/-- O18. TXTDEC (42_lut_text.md R156): a source or a destination of length L out of range, and otherwise the codes of
the source bytes as they stood, in order, at D, their number in R, every byte outside the emitted ones and every
register kept. -/
def Obligations.TxtdecDecodesTheRange : Prop :=
  encode .txtdec = 0x00000031#32 ∧
    (∀ s : State, 32768 < s.a.toNat + s.l.toNat ∨ 32768 < s.d.toNat + s.l.toNat →
      ∃ t, exec .txtdec s = .next t ∧ ErrorOnly 2#3 s t) ∧
    ∀ s : State, s.a.toNat + s.l.toNat ≤ 32768 → s.d.toNat + s.l.toNat ≤ 32768 →
      ∃ t, exec .txtdec s = .next t ∧
        t.r.toNat = (s.codes s.a.toNat s.l.toNat).length ∧ t.r.toNat ≤ s.l.toNat ∧
        (∀ k code, (s.codes s.a.toNat s.l.toNat)[k]? = some code → t.byteAt (s.d.toNat + k) = code ∧ code ≠ 0) ∧
        SameBytesOutside s.d.toNat (s.codes s.a.toNat s.l.toNat).length s t ∧
        StatusDone s t ∧ t = { s with r := t.r, buf := t.buf, status := t.status }

/-- O19. TXTNAME (42_lut_text.md R157): a record or a destination of 8 bytes out of range, and otherwise the codes of
the 8 name bytes at RB + 0x24 as they stood, in order, at D, their number in R, everything else kept. -/
def Obligations.TxtnameDecodesTheName : Prop :=
  encode .txtname = 0x00000032#32 ∧
    (∀ s : State, 32768 < s.rb.toNat + 5200 ∨ 32768 < s.d.toNat + 8 →
      ∃ t, exec .txtname s = .next t ∧ ErrorOnly 2#3 s t) ∧
    ∀ s : State, s.rb.toNat + 5200 ≤ 32768 → s.d.toNat + 8 ≤ 32768 →
      ∃ t, exec .txtname s = .next t ∧
        t.r.toNat = (s.codes (s.rb.toNat + 0x24) 8).length ∧ t.r.toNat ≤ 8 ∧
        (∀ k code, (s.codes (s.rb.toNat + 0x24) 8)[k]? = some code → t.byteAt (s.d.toNat + k) = code) ∧
        SameBytesOutside s.d.toNat (s.codes (s.rb.toNat + 0x24) 8).length s t ∧
        StatusDone s t ∧ t = { s with r := t.r, buf := t.buf, status := t.status }

/-- O20. RD16 (43_field_mux.md R171): a record or a field out of range, and otherwise R is the big-endian value of the
two bytes at RB + IMM, and nothing but R and ERR changes. -/
def Obligations.Rd16ReadsABigEndianField : Prop :=
  (∀ imm : Half, (encode (.rd16 imm)).toNat = imm.toNat * 2 ^ 16 + 0x40) ∧
    (∀ (imm : Half) (s : State), 32768 < s.rb.toNat + 5200 ∨ 5200 < imm.toNat + 2 →
      ∃ t, exec (.rd16 imm) s = .next t ∧ ErrorOnly 2#3 s t) ∧
    ∀ (imm : Half) (s : State), s.rb.toNat + 5200 ≤ 32768 → imm.toNat + 2 ≤ 5200 →
      ∃ t, exec (.rd16 imm) s = .next t ∧
        t.r.toNat =
          (s.byteAt (s.rb.toNat + imm.toNat)).toNat * 256 + (s.byteAt (s.rb.toNat + imm.toNat + 1)).toNat ∧
        StatusDone s t ∧ t = { s with r := t.r, status := t.status }

/-- O21. RD8 (43_field_mux.md R172): a record or a field out of range, and otherwise R is the byte at RB + IMM, and
nothing but R and ERR changes. -/
def Obligations.Rd8ReadsAByte : Prop :=
  (∀ imm : Half, (encode (.rd8 imm)).toNat = imm.toNat * 2 ^ 16 + 0x41) ∧
    (∀ (imm : Half) (s : State), 32768 < s.rb.toNat + 5200 ∨ 5200 < imm.toNat + 1 →
      ∃ t, exec (.rd8 imm) s = .next t ∧ ErrorOnly 2#3 s t) ∧
    ∀ (imm : Half) (s : State), s.rb.toNat + 5200 ≤ 32768 → imm.toNat + 1 ≤ 5200 →
      ∃ t, exec (.rd8 imm) s = .next t ∧ t.r.toNat = (s.byteAt (s.rb.toNat + imm.toNat)).toNat ∧
        StatusDone s t ∧ t = { s with r := t.r, status := t.status }

/-- O22. RDBIT (43_field_mux.md R173): a record or a field out of range, and otherwise R is bit BIT of the byte at
RB + IMM, bit 0 the least significant, and nothing but R and ERR changes. -/
def Obligations.RdbitReadsABit : Prop :=
  (∀ (imm : Half) (bit : BitVec 3),
      (encode (.rdbit imm bit)).toNat = imm.toNat * 2 ^ 16 + bit.toNat * 2 ^ 8 + 0x42) ∧
    (∀ (imm : Half) (bit : BitVec 3) (s : State), 32768 < s.rb.toNat + 5200 ∨ 5200 < imm.toNat + 1 →
      ∃ t, exec (.rdbit imm bit) s = .next t ∧ ErrorOnly 2#3 s t) ∧
    ∀ (imm : Half) (bit : BitVec 3) (s : State), s.rb.toNat + 5200 ≤ 32768 → imm.toNat + 1 ≤ 5200 →
      ∃ t, exec (.rdbit imm bit) s = .next t ∧
        t.r.toNat = (s.byteAt (s.rb.toNat + imm.toNat)).toNat / 2 ^ bit.toNat % 2 ∧
        StatusDone s t ∧ t = { s with r := t.r, status := t.status }

/-- O23. FLD (43_field_mux.md R174, R175): a record out of range; otherwise selectors 0 to 4 read the big-endian field
at 0x34, 0x22, 0x2E, 0x30, 0x1352 and selector 5 the byte at 0x1354, which is what RD16 and RD8 read there; a selector
above 5 has no legal word. -/
def Obligations.FldReadsTheFixedFields : Prop :=
  (∀ sel : Half, (encode (.fld sel)).toNat = sel.toNat * 2 ^ 16 + 0x43) ∧
    (∀ sel : Half, 5 < sel.toNat → ∃ e, decode (encode (.fld sel)) = .error e) ∧
    (∀ (sel : Half) (s : State), sel.toNat ≤ 5 → 32768 < s.rb.toNat + 5200 →
      ∃ t, exec (.fld sel) s = .next t ∧ ErrorOnly 2#3 s t) ∧
    (∀ (sel : Half) (offset : Nat) (s : State), [0x34, 0x22, 0x2E, 0x30, 0x1352][sel.toNat]? = some offset →
      s.rb.toNat + 5200 ≤ 32768 →
      ∃ t, exec (.fld sel) s = .next t ∧ exec (.rd16 (BitVec.ofNat 16 offset)) s = .next t ∧
        t.r.toNat =
          (s.byteAt (s.rb.toNat + offset)).toNat * 256 + (s.byteAt (s.rb.toNat + offset + 1)).toNat ∧
        StatusDone s t ∧ t = { s with r := t.r, status := t.status }) ∧
    ∀ s : State, s.rb.toNat + 5200 ≤ 32768 →
      ∃ t, exec (.fld 5#16) s = .next t ∧ exec (.rd8 0x1354#16) s = .next t ∧
        t.r.toNat = (s.byteAt (s.rb.toNat + 0x1354)).toNat ∧
        StatusDone s t ∧ t = { s with r := t.r, status := t.status }

/-! ## Laws of the units -/

/-- O24. SWAPB and SWAPW are their own inverses (40_byteswap.md R105). -/
def Obligations.SwapsAreInvolutions : Prop :=
  (∀ s : State, s.a.toNat + s.l.toNat ≤ 32768 → s.l.toNat % 4 = 0 →
      ∃ t u, exec .swapb s = .next t ∧ exec .swapb t = .next u ∧ SameBytes s u) ∧
    ∀ s : State, ∃ t u, exec .swapw s = .next t ∧ exec .swapw (t.setW t.r) = .next u ∧ u.r = s.w

/-- O25. Swapping the 8 chunks of the container layout one after another gives the same bytes as one swap of the whole
buffer, and a second whole swap restores it (20_memory.md R65, 40_byteswap.md R106). -/
def Obligations.ChunkSwapsEqualTheWholeSwap : Prop :=
  ∀ s : State, ∃ (f : Nat → State) (u v : State),
    f 0 = s ∧
    (∀ k, k < 8 →
      exec .swapb (((f k).setA (BitVec.ofNat 16 (chunkStart k))).setL (BitVec.ofNat 16 (chunkLength k)))
        = .next (f (k + 1))) ∧
    exec .swapb ((s.setA 0#16).setL 32768#16) = .next u ∧ SameBytes u (f 8) ∧
    exec .swapb u = .next v ∧ SameBytes s v

/-- O26. A checksum built from two CKADDs over adjacent ranges, the first of even length, is the one CKADD over the
whole range gives (41_checksum.md R121). -/
def Obligations.ChecksumIsRolling : Prop :=
  ∀ (s : State) (m n : Half), s.a.toNat + (m.toNat + n.toNat) ≤ 32768 → m.toNat % 2 = 0 →
    ∃ t u v, exec .ckadd (s.setL m) = .next t ∧ exec .ckadd ((t.setA (s.a + m)).setL n) = .next u ∧
      exec .ckadd (s.setL (m + n)) = .next v ∧ u.acc = v.acc ∧ u.r = v.r

/-- O27. The last byte of an odd length adds nothing and is not kept: two CKADDs over 3 bytes each add the words at 0
and at 3, not those of the 6 bytes (41_checksum.md R122). -/
def Obligations.DanglingByteIsDropped : Prop :=
  (∀ s : State, s.a.toNat + s.l.toNat ≤ 32768 → s.l.toNat % 2 = 1 →
      ∃ t u, exec .ckadd s = .next t ∧ exec .ckadd (s.setL (s.l - 1)) = .next u ∧ t.acc = u.acc) ∧
    ∀ s : State, s.a.toNat + 6 ≤ 32768 →
      ∃ t u, exec .ckadd (s.setL 3#16) = .next t ∧ exec .ckadd (t.setA (s.a + 3#16)) = .next u ∧
        u.acc.toNat = (s.acc.toNat + ((s.byteAt s.a.toNat).toNat * 256 + (s.byteAt (s.a.toNat + 1)).toNat)
          + ((s.byteAt (s.a.toNat + 3)).toNat * 256 + (s.byteAt (s.a.toNat + 4)).toNat)) % 2 ^ 16

/-- O28. One changed byte of the summed span changes the computed checksum; a record whose CKVER passes then fails on a
change of one byte at offset 0 to 0x1353, and still passes on a change at 0x1354 to 0x144F (41_checksum.md R130). -/
def Obligations.OneChangedByteFlipsThePass : Prop :=
  (∀ (s : State) (k : Nat) (b : Byte), s.rb.toNat + 5200 ≤ 32768 → k < 0x1352 → b ≠ s.byteAt (s.rb.toNat + k) →
      ∃ t u, exec .ckver s = .next t ∧ exec .ckver (s.memWrite (s.rb.toNat + k) [b]) = .next u ∧ u.acc ≠ t.acc) ∧
    ∀ (s t : State) (k : Nat) (b : Byte), s.rb.toNat + 5200 ≤ 32768 → exec .ckver s = .next t →
      Status.mm t.status = false → k < 5200 → b ≠ s.byteAt (s.rb.toNat + k) →
      ∃ u, exec .ckver (s.memWrite (s.rb.toNat + k) [b]) = .next u ∧
        (k < 0x1354 → Status.mm u.status = true) ∧ (0x1354 ≤ k → Status.mm u.status = false)

/-- O29. After a CKWR, a CKVER with the same RB passes, whatever was written meanwhile outside the bytes
`[RB, RB+0x1354)` (41_checksum.md R132). -/
def Obligations.CkverPassesAfterCkwr : Prop :=
  ∀ (s s' : State), s.rb.toNat + 5200 ≤ 32768 →
    ∃ t, exec .ckwr s = .next t ∧
      (s'.rb = t.rb → (∀ k, k < 0x1354 → s'.byteAt (s.rb.toNat + k) = t.byteAt (s.rb.toNat + k)) →
        ∃ u, exec .ckver s' = .next u ∧ Status.mm u.status = false ∧ u.expected = u.acc ∧ u.acc = t.acc)

/-- O30. The checksum commands read only the registers and bytes their rules name: two states that agree on them give
the same ACC (41_checksum.md R133). -/
def Obligations.ChecksumsReadOnlyWhatTheyName : Prop :=
  (∀ s s' t t' : State, s'.a = s.a → s'.l = s.l →
      (∀ k, k < s.l.toNat → s'.byteAt (s.a.toNat + k) = s.byteAt (s.a.toNat + k)) → s.a.toNat + s.l.toNat ≤ 32768 →
      (exec .cksum s = .next t → exec .cksum s' = .next t' → t'.acc = t.acc) ∧
      (s'.acc = s.acc → exec .ckadd s = .next t → exec .ckadd s' = .next t' → t'.acc = t.acc)) ∧
    (∀ s s' t t' : State, s'.acc = s.acc → s'.w.extractLsb' 0 16 = s.w.extractLsb' 0 16 →
      exec .ckaddw s = .next t → exec .ckaddw s' = .next t' → t'.acc = t.acc) ∧
    ∀ s s' t t' : State, s'.rb = s.rb → s.rb.toNat + 5200 ≤ 32768 →
      (∀ k, k < 0x1352 → s'.byteAt (s.rb.toNat + k) = s.byteAt (s.rb.toNat + k)) →
      (exec .ckver s = .next t → exec .ckver s' = .next t' → t'.acc = t.acc) ∧
      (exec .ckwr s = .next t → exec .ckwr s' = .next t' → t'.acc = t.acc)

/-- O31. No byte emits '0', byte 0 emits nothing, and no text command writes a 0x00 or a '0' into the bytes it emits
(42_lut_text.md R152, R156). -/
def Obligations.TextNeverEmitsNulOrZero : Prop :=
  lut 0 = none ∧ (∀ b : Byte, lut b ≠ some 0x30#8) ∧
    ∀ (i : Instr) (s t : State), i = .txtdec ∨ i = .txtname → exec i s = .next t → Status.err t.status = 0 →
      ∀ k, k < t.r.toNat → t.byteAt (s.d.toNat + k) ≠ 0x00#8 ∧ t.byteAt (s.d.toNat + k) ≠ 0x30#8

/-- O32. The accessor properties (43_field_mux.md R178): RDBIT gives 0 or 1, RD16 of 00 FF gives 255 and of FF FF gives
65535, and every FMX command writes only R and STATUS. -/
def Obligations.FieldReadsArePure : Prop :=
  (∀ (imm : Half) (bit : BitVec 3) (s t : State), exec (.rdbit imm bit) s = .next t → Status.err t.status = 0 →
      t.r = 0 ∨ t.r = 1) ∧
    (∀ (imm : Half) (s t : State), exec (.rd16 imm) s = .next t → Status.err t.status = 0 →
      s.byteAt (s.rb.toNat + imm.toNat + 1) = 0xFF#8 →
      (s.byteAt (s.rb.toNat + imm.toNat) = 0x00#8 → t.r = 255) ∧
      (s.byteAt (s.rb.toNat + imm.toNat) = 0xFF#8 → t.r = 65535)) ∧
    ∀ (imm : Half) (bit : BitVec 3) (i : Instr) (s t : State),
      i ∈ [.rd16 imm, .rd8 imm, .rdbit imm bit, .fld imm] → exec i s = .next t →
      t = { s with r := t.r, status := t.status }

/-! ## Errors, flags and frames over all commands -/

/-- O33. A command that ends in an error changes STATUS.ERR and STATUS.EF alone (60_exceptions.md R214). -/
def Obligations.ErrorsTouchOnlyErrAndEf : Prop :=
  ∀ (c : Word) (s t : State), execute c s = .next t → Status.err t.status ≠ 0 → ErrorOnly (Status.err t.status) s t

/-- O34. Every command word ends in success or in one of the errors 1 to 3: a next state always, ERR never 4 to 7, EF
kept by a success (44_host_control.md R195, 60_exceptions.md R211, R213). -/
def Obligations.EveryCommandEndsInDoneOrRaise : Prop :=
  ∀ (c : Word) (s : State), ∃ t, execute c s = .next t ∧
    ((Status.err t.status = 0 ∧ Status.ef t.status = Status.ef s.status) ∨
      ErrorOnly 1#3 s t ∨ ErrorOnly 2#3 s t ∨ ErrorOnly 3#3 s t)

/-- O35. The order of errors (60_exceptions.md R215): an illegal word reports IllegalCommand whatever the registers
hold, a range out of BUF reports OutOfRange whatever the length's form, and MalformedInput comes last. -/
def Obligations.ErrorsAreReportedInOrder : Prop :=
  (∀ (c : Word) (s : State), IllegalWord c → ∃ t, execute c s = .next t ∧ ErrorOnly 3#3 s t) ∧
    (∀ s : State, 32768 < s.a.toNat + s.l.toNat → s.l.toNat % 4 ≠ 0 →
      ∃ t, execute 0x00000011#32 s = .next t ∧ ErrorOnly 2#3 s t) ∧
    (∀ (c : Word) (s t : State), execute c s = .next t → Status.err t.status = 1#3 →
      c = 0x00000011#32 ∧ s.a.toNat + s.l.toNat ≤ 32768 ∧ s.l.toNat % 4 ≠ 0)

/-- O36. No command word changes A, L, D, RB or W (70_reset_and_hazards.md R252). -/
def Obligations.CommandsKeepTheOperands : Prop :=
  ∀ (c : Word) (s t : State), execute c s = .next t → SameOperands s t

/-- O37. Only a CKVER that succeeds writes EXP, MM or MMS; every command, legal or not, leaves the reserved bits of
STATUS and the model's own fields as they were (10_state.md R29, R35, R36, R37). -/
def Obligations.OnlyCkverWritesTheVerdict : Prop :=
  ∀ (c : Word) (s t : State), execute c s = .next t →
    SameHost s t ∧ Status.reserved t.status = Status.reserved s.status ∧
    (c ≠ 0x00000024#32 ∨ Status.err t.status ≠ 0 →
      t.expected = s.expected ∧ Status.mm t.status = Status.mm s.status ∧ Status.mms t.status = Status.mms s.status)

/-- O38. EF and MMS are sticky (10_state.md R34, R36): a command that ends in an error sets EF, a CKVER that finds a
mismatch sets MMS, and over a step one of them goes from 1 to 0 only by Reset or by a host write to STATUS with its
bit set. -/
def Obligations.StickyFlagsClearOnlyByTheHost : Prop :=
  (∀ (c : Word) (s t : State), execute c s = .next t → Status.err t.status ≠ 0 → Status.ef t.status = true) ∧
    (∀ s t : State, exec .ckver s = .next t → Status.err t.status = 0 → t.acc ≠ t.expected →
      Status.mms t.status = true) ∧
    ∀ s t : State, step s = .next t →
      (Status.ef s.status = true → Status.ef t.status = false →
        ∃ op rest, s.script = op :: rest ∧ (op = .reset ∨ ∃ v, op.writesReg .status v ∧ v.getLsbD 3 = true)) ∧
      (Status.mms s.status = true → Status.mms t.status = false →
        ∃ op rest, s.script = op :: rest ∧ (op = .reset ∨ ∃ v, op.writesReg .status v ∧ v.getLsbD 5 = true))

/-- O39. Over a step A, L, D, RB and W change only by Reset or by the host's write to that register (10_state.md
R22-R26). -/
def Obligations.OnlyTheHostWritesTheOperands : Prop :=
  ∀ s t : State, step s = .next t →
    (t.a ≠ s.a → ∃ op rest, s.script = op :: rest ∧ (op = .reset ∨ ∃ v, op.writesReg .a v)) ∧
    (t.l ≠ s.l → ∃ op rest, s.script = op :: rest ∧ (op = .reset ∨ ∃ v, op.writesReg .l v)) ∧
    (t.d ≠ s.d → ∃ op rest, s.script = op :: rest ∧ (op = .reset ∨ ∃ v, op.writesReg .d v)) ∧
    (t.rb ≠ s.rb → ∃ op rest, s.script = op :: rest ∧ (op = .reset ∨ ∃ v, op.writesReg .rb v)) ∧
    (t.w ≠ s.w → ∃ op rest, s.script = op :: rest ∧ (op = .reset ∨ ∃ v, op.writesReg .w v))

/-- O40. Over a step ERR changes only by Reset or by a command (44_host_control.md R191, 10_state.md R33). -/
def Obligations.OnlyCommandsWriteErr : Prop :=
  ∀ s t : State, step s = .next t → Status.err t.status ≠ Status.err s.status →
    ∃ op rest, s.script = op :: rest ∧ (op = .reset ∨ ∃ c, op.writesReg .cmd c)

/-! ## Invariants -/

/-- O41. Every step keeps the invariant: BUF's canonical form (the model's own, log entry 2), STATUS bits 31:6 zero
(10_state.md R37) and ERR at most 3 (10_state.md R32). -/
def Obligations.StepKeepsTheInvariant : Prop :=
  ∀ s t : State, s.Inv → step s = .next t → t.Inv

/-- O42. The invariant holds after every power-on. -/
def Obligations.PowerOnMeetsTheInvariant : Prop :=
  State.reset.Inv ∧ ∀ n : Nat, (State.atPowerOn n).Inv

/-- O43. A step completes exactly when the host's next operation is none of the refused ones. Refused by the spec
(44_host_control.md R198): a buffer index of 32768 or above, a register access narrower than 32 bits, a BUF access wider
than 8 bits. Refused by the model's choice (log entry 4): a register access wider than 32 bits, a BUF access narrower
than 8 bits, an access at a reserved offset that is not 32 bits wide, an access of any width at an offset below 0x0028
that is no register's own. A host that performs nothing leaves the state as it is (the model's choice, log entry 3). -/
def Obligations.StepsCompleteUnlessRefused : Prop :=
  (∀ s : State, s.Safe ↔ ∀ op rest, s.script = op :: rest → op.refusedBySpec = false) ∧
    ∀ s : State, s.script = [] → step s = .next s

/-! ## Reset and the host's operations -/

/-- O44. Reset (70_reset_and_hazards.md R240, 10_state.md R43): every register takes its reset value, BUF keeps every
byte, and so do the registers of the state a run starts in. -/
def Obligations.ResetClearsTheRegisters : Prop :=
  (∀ (s : State) (rest : List HostOp), s.script = .reset :: rest →
      ∃ t, step s = .next t ∧ t.a = 0 ∧ t.l = 0 ∧ t.d = 0 ∧ t.rb = 0 ∧ t.w = 0 ∧ t.r = 0 ∧ t.acc = 0 ∧
        t.expected = 0 ∧ t.status = 0 ∧ SameBytes s t ∧ t.buf = s.buf ∧ t.script = rest ∧ t.powerOn = s.powerOn) ∧
    ∀ n : Nat, let s := State.atPowerOn n
      s.a = 0 ∧ s.l = 0 ∧ s.d = 0 ∧ s.rb = 0 ∧ s.w = 0 ∧ s.r = 0 ∧ s.acc = 0 ∧ s.expected = 0 ∧ s.status = 0

/-- O45. RegWrite (44_host_control.md R191, R197): each register's own rule. -/
def Obligations.RegWriteFollowsItsRule : Prop :=
  ∀ (s : State) (v : Word) (rest : List HostOp),
    (s.script = .regWrite .cmd v :: rest → step s = execute v (s.begin rest)) ∧
    (s.script = .regWrite .status v :: rest →
      ∃ t, step s = .next t ∧ t = { s.begin rest with status := t.status } ∧
        (Status.ef t.status = true ↔ Status.ef s.status = true ∧ v.getLsbD 3 = false) ∧
        (Status.mms t.status = true ↔ Status.mms s.status = true ∧ v.getLsbD 5 = false) ∧
        ∀ k, k ≠ 3 → k ≠ 5 → t.status.getLsbD k = s.status.getLsbD k) ∧
    (s.script = .regWrite .a v :: rest → step s = .next { s.begin rest with a := BitVec.ofNat 16 v.toNat }) ∧
    (s.script = .regWrite .l v :: rest → step s = .next { s.begin rest with l := BitVec.ofNat 16 v.toNat }) ∧
    (s.script = .regWrite .d v :: rest → step s = .next { s.begin rest with d := BitVec.ofNat 16 v.toNat }) ∧
    (s.script = .regWrite .rb v :: rest → step s = .next { s.begin rest with rb := BitVec.ofNat 16 v.toNat }) ∧
    (s.script = .regWrite .w v :: rest → step s = .next { s.begin rest with w := v }) ∧
    (∀ reg, reg ∈ [Reg.r, .acc, .exp] → s.script = .regWrite reg v :: rest → step s = .next (s.begin rest)) ∧
    (∀ offset : BitVec 16, 0x28 ≤ offset.toNat → offset.toNat ≤ 0x7FFF →
      s.script = .windowWrite offset 32 v :: rest → step s = .next (s.begin rest))

/-- O46. RegRead (44_host_control.md R192): the register's value zero-extended, 0 for CMD and a reserved offset, STATUS
with bits 31:6 as 0, and no state changes but the response. -/
def Obligations.RegReadFollowsItsRule : Prop :=
  ∀ (s : State) (rest : List HostOp),
    (∀ reg, s.script = .regRead reg :: rest →
      ∃ v, step s = .next ((s.begin rest).setResponse (.word v)) ∧
        (reg = .cmd → v = 0) ∧
        (reg = .status → v.toNat = s.status.toNat % 64) ∧
        (reg = .a → v.toNat = s.a.toNat) ∧ (reg = .l → v.toNat = s.l.toNat) ∧
        (reg = .d → v.toNat = s.d.toNat) ∧ (reg = .rb → v.toNat = s.rb.toNat) ∧
        (reg = .w → v = s.w) ∧ (reg = .r → v = s.r) ∧
        (reg = .acc → v.toNat = s.acc.toNat) ∧ (reg = .exp → v.toNat = s.expected.toNat)) ∧
    (∀ offset : BitVec 16, 0x28 ≤ offset.toNat → offset.toNat ≤ 0x7FFF →
      s.script = .windowRead offset 32 :: rest → step s = .next ((s.begin rest).setResponse (.word 0)))

/-- O47. BufWrite (44_host_control.md R193): an index below 32768 takes the byte and nothing else changes; at or above
it the operation is refused. -/
def Obligations.BufWriteSetsOneByte : Prop :=
  ∀ (s : State) (i : Nat) (b : Byte) (rest : List HostOp), s.script = .bufWrite i b :: rest →
    (i < 32768 → ∃ t, step s = .next t ∧ t.byteAt i = b ∧ SameBytesOutside i 1 s t ∧
      t = { s.begin rest with buf := t.buf }) ∧
    (32768 ≤ i → ∃ e, step s = .refused e)

/-- O48. BufRead (44_host_control.md R194): an index below 32768 answers the byte of BUF and changes no state but the
response; a byte that nothing has written since power-on answers its free draw, the same at every read; at or above 32768
the operation is refused. The draw is the model's free value (log entry 2): the statement holds for every draw. -/
def Obligations.BufReadAnswersTheByte : Prop :=
  ∀ (s : State) (i : Nat) (rest : List HostOp), s.script = .bufRead i :: rest →
    (i < 32768 → step s = .next ((s.begin rest).setResponse (.byte (s.byteAt i)))) ∧
    ((∀ b, (i, b) ∉ s.buf) → s.byteAt i = Config.powerOnByte s.powerOn i) ∧
    (32768 ≤ i → ∃ e, step s = .refused e)

/-- O49. Over a step a byte of BUF changes only by a BufWrite to it or by a command, and the draws of the unwritten
bytes stay those of the same power-on (70_reset_and_hazards.md R241). -/
def Obligations.BytesStayUntilWritten : Prop :=
  ∀ s t : State, step s = .next t →
    t.powerOn = s.powerOn ∧
    ∀ i, t.byteAt i ≠ s.byteAt i →
      ∃ op rest, s.script = op :: rest ∧
        ((∃ b, op = .bufWrite i b) ∨ (∃ offset v, windowTarget offset = .buf i ∧ op = .windowWrite offset 8 v) ∨
          ∃ c, op.writesReg .cmd c)

/-- O50. The host window (10_state.md R44): an access at a register's offset, 32 bits wide, is the access by name, and
an 8-bit access at 0x8000 + i is the access to BUF[i]. -/
def Obligations.WindowIsTheRegisterMap : Prop :=
  (∀ (s : State) (v : Word) (reg : Reg) (offset : BitVec 16),
      (reg, offset) ∈ [(Reg.cmd, 0x0000#16), (.status, 0x0004#16), (.a, 0x0008#16), (.l, 0x000C#16), (.d, 0x0010#16),
        (.rb, 0x0014#16), (.w, 0x0018#16), (.r, 0x001C#16), (.acc, 0x0020#16), (.exp, 0x0024#16)] →
      performOp (.windowWrite offset 32 v) s = performOp (.regWrite reg v) s ∧
      performOp (.windowRead offset 32) s = performOp (.regRead reg) s) ∧
    ∀ (s : State) (v : Word) (i : Nat), i < 32768 →
      performOp (.windowWrite (BitVec.ofNat 16 (0x8000 + i)) 8 v) s
        = performOp (.bufWrite i (BitVec.ofNat 8 v.toNat)) s ∧
      performOp (.windowRead (BitVec.ofNat 16 (0x8000 + i)) 8) s = performOp (.bufRead i) s

/-- O51. A buffer index of 32768 or above, an offset below 0x8000 accessed with another width than 32 bits, and a BUF
offset accessed with another width than 8 bits have no step. The spec refuses the index, a register access narrower than
32 bits and a BUF access wider than 8 bits (44_host_control.md R198). The rest is the model's choice (log entry 4): a
register access wider than 32 bits, a BUF access narrower than 8 bits, and an access of another width than 32 bits at an
offset below 0x8000 that is no register's own, reserved offsets among them. -/
def Obligations.RefusedAccessesHaveNoStep : Prop :=
  ∀ (s : State) (op : HostOp) (rest : List HostOp), s.script = op :: rest →
    (∀ i, 32768 ≤ i → (op = .bufRead i ∨ ∃ b, op = .bufWrite i b) → ∃ e, step s = .refused e) ∧
    (∀ (offset : BitVec 16) (width : Nat), offset.toNat < 0x8000 → width ≠ 32 →
      (op = .windowRead offset width ∨ ∃ v, op = .windowWrite offset width v) → ∃ e, step s = .refused e) ∧
    (∀ (offset : BitVec 16) (width : Nat), 0x8000 ≤ offset.toNat → width ≠ 8 →
      (op = .windowRead offset width ∨ ∃ v, op = .windowWrite offset width v) → ∃ e, step s = .refused e)
end

