-- ==== Sys2Proof/Laws/Encoding.lean ====
section
/-! SUPPORT. The fields of a command word and the opcode map, each way (30_encoding.md R81, R85). -/
namespace Sys2Proof

/-! ## A word is its four fields -/

theorem toNat_cmdWord (imm : Half) (rsv : BitVec 5) (bit : BitVec 3) (opc : Byte) :
    (cmdWord imm rsv bit opc).toNat = imm.toNat * 2 ^ 16 + rsv.toNat * 2 ^ 11 + bit.toNat * 2 ^ 8 + opc.toNat := by
  have h1 := rsv.isLt
  have h2 := bit.isLt
  have h3 := opc.isLt
  unfold cmdWord
  rw [BitVec.toNat_append, BitVec.toNat_append, BitVec.toNat_append, ← Nat.shiftLeft_add_eq_or_of_lt h3,
    ← Nat.shiftLeft_add_eq_or_of_lt h2, ← Nat.shiftLeft_add_eq_or_of_lt h1]
  simp only [Nat.shiftLeft_eq]
  omega

theorem toNat_cmdOpc (c : Word) : (cmdOpc c).toNat = c.toNat % 2 ^ 8 := by
  simp [cmdOpc, BitVec.extractLsb'_toNat]

theorem toNat_cmdBit (c : Word) : (cmdBit c).toNat = c.toNat / 2 ^ 8 % 2 ^ 3 := by
  simp [cmdBit, BitVec.extractLsb'_toNat, Nat.shiftRight_eq_div_pow]

theorem toNat_cmdRsv (c : Word) : (cmdRsv c).toNat = c.toNat / 2 ^ 11 % 2 ^ 5 := by
  simp [cmdRsv, BitVec.extractLsb'_toNat, Nat.shiftRight_eq_div_pow]

theorem toNat_cmdImm (c : Word) : (cmdImm c).toNat = c.toNat / 2 ^ 16 := by
  have := c.isLt
  simp only [cmdImm, BitVec.extractLsb'_toNat, Nat.shiftRight_eq_div_pow]
  omega

@[simp] theorem cmdOpc_cmdWord (imm : Half) (rsv : BitVec 5) (bit : BitVec 3) (opc : Byte) :
    cmdOpc (cmdWord imm rsv bit opc) = opc := by
  apply BitVec.eq_of_toNat_eq
  rw [toNat_cmdOpc, toNat_cmdWord]
  have := imm.isLt
  have := rsv.isLt
  have := bit.isLt
  have := opc.isLt
  omega

@[simp] theorem cmdBit_cmdWord (imm : Half) (rsv : BitVec 5) (bit : BitVec 3) (opc : Byte) :
    cmdBit (cmdWord imm rsv bit opc) = bit := by
  apply BitVec.eq_of_toNat_eq
  rw [toNat_cmdBit, toNat_cmdWord]
  have := imm.isLt
  have := rsv.isLt
  have := bit.isLt
  have := opc.isLt
  omega

@[simp] theorem cmdRsv_cmdWord (imm : Half) (rsv : BitVec 5) (bit : BitVec 3) (opc : Byte) :
    cmdRsv (cmdWord imm rsv bit opc) = rsv := by
  apply BitVec.eq_of_toNat_eq
  rw [toNat_cmdRsv, toNat_cmdWord]
  have := imm.isLt
  have := rsv.isLt
  have := bit.isLt
  have := opc.isLt
  omega

@[simp] theorem cmdImm_cmdWord (imm : Half) (rsv : BitVec 5) (bit : BitVec 3) (opc : Byte) :
    cmdImm (cmdWord imm rsv bit opc) = imm := by
  apply BitVec.eq_of_toNat_eq
  rw [toNat_cmdImm, toNat_cmdWord]
  have := imm.isLt
  have := rsv.isLt
  have := bit.isLt
  have := opc.isLt
  omega

/-- A word put together from its fields is that word. -/
theorem cmdWord_fields (c : Word) : cmdWord (cmdImm c) (cmdRsv c) (cmdBit c) (cmdOpc c) = c := by
  apply BitVec.eq_of_toNat_eq
  rw [toNat_cmdWord, toNat_cmdImm, toNat_cmdRsv, toNat_cmdBit, toNat_cmdOpc]
  omega

/-! ## The opcode map -/

@[simp] theorem opcodeOf_opcodeByte (m : Opcode) : opcodeOf (opcodeByte m) = some m := by cases m <;> rfl

/-- An OPC value names one mnemonic at most. -/
theorem opcodeByte_of_opcodeOf {opc : Byte} {m : Opcode} (h : opcodeOf opc = some m) : opcodeByte m = opc := by
  apply BitVec.eq_of_toNat_eq
  unfold opcodeOf at h
  split at h <;> cases h <;> rename_i hn <;> rw [hn] <;> rfl

/-- A command is its mnemonic and its field values. -/
@[simp] theorem instrOf_fields (i : Instr) : instrOf (instrOpcode i) (instrImm i) (instrBit i) = i := by
  cases i <;> rfl

@[simp] theorem instrOpcode_instrOf (m : Opcode) (imm : Half) (bit : BitVec 3) :
    instrOpcode (instrOf m imm bit) = m := by cases m <;> rfl

end Sys2Proof
end

