-- ==== Sys2Proof/Laws/Flags.lean ====
section
/-! SUPPORT. What every write of STATUS does to each bit and field. -/
namespace Sys2Proof.Machine

@[simp] theorem Status.getLsbD_setBit (st : Word) (i : Nat) (b : Bool) (k : Nat) (hi : i < 32) :
    (Status.setBit st i b).getLsbD k = if k = i then b else st.getLsbD k := by
  unfold Status.setBit
  by_cases hk : k < 32
  · by_cases hki : k = i
    · subst hki; cases b <;> simp [hi]
    · cases b <;> simp [hki, hk]
  · have hne : k ≠ i := by omega
    cases b <;> simp [hne, BitVec.getLsbD_of_ge _ k (by omega : 32 ≤ k)]

@[simp] theorem Status.getLsbD_setErr (st : Word) (e : BitVec 3) (k : Nat) :
    (Status.setErr st e).getLsbD k = if k < 3 then e.getLsbD k else st.getLsbD k := by
  unfold Status.setErr
  rw [BitVec.getLsbD_append]
  by_cases hk : k < 3
  · simp [hk]
  · by_cases h32 : k < 32
    · have : k - 3 < 29 := by omega
      have h2 : 3 + (k - 3) = k := by omega
      simp [hk, this, h2]
    · have : ¬ k - 3 < 29 := by omega
      simp [hk, this, BitVec.getLsbD_of_ge _ k (by omega : 32 ≤ k)]

@[simp] theorem Status.getElem_setBit (st : Word) (i : Nat) (b : Bool) (k : Nat) (hk : k < 32) (hi : i < 32) :
    (Status.setBit st i b)[k] = if k = i then b else st[k] := by
  simpa [BitVec.getLsbD_eq_getElem hk] using Status.getLsbD_setBit st i b k hi

@[simp] theorem Status.getElem_setErr (st : Word) (e : BitVec 3) (k : Nat) (hk : k < 32) :
    (Status.setErr st e)[k] = if k < 3 then e.getLsbD k else st[k] := by
  simpa [BitVec.getLsbD_eq_getElem hk] using Status.getLsbD_setErr st e k

@[simp] theorem Status.err_setErr (st : Word) (e : BitVec 3) : Status.err (Status.setErr st e) = e := by
  ext k hk
  simp [Status.err, hk, ← BitVec.getLsbD_eq_getElem]

@[simp] theorem Status.err_setBit (st : Word) (i : Nat) (b : Bool) (h3 : 3 ≤ i) (hi : i < 32) :
    Status.err (Status.setBit st i b) = Status.err st := by
  ext k hk
  have hne : k ≠ i := by omega
  simp [Status.err, hi, hne, ← BitVec.getLsbD_eq_getElem]

/-- The reserved field says the bits from 6 up. -/
theorem Status.reserved_eq_zero_iff (st : Word) :
    Status.reserved st = 0 ↔ ∀ k, 6 ≤ k → st.getLsbD k = false := by
  constructor
  · intro h k hk
    by_cases h32 : k < 32
    · have hb : (Status.reserved st).getLsbD (k - 6) = false := by rw [h]; simp
      have h6 : 6 + (k - 6) = k := by omega
      have h26 : k - 6 < 26 := by omega
      simpa [Status.reserved, BitVec.getLsbD_extractLsb', h6, h26] using hb
    · exact BitVec.getLsbD_of_ge _ k (by omega)
  · intro h
    ext k hk
    have := h (6 + k) (by omega)
    simp [Status.reserved, this]

/-! ## A command that succeeded -/

@[simp] theorem Status.err_succeed (st : Word) : Status.err (Status.succeed st) = 0 := by simp [Status.succeed]

theorem Status.getLsbD_succeed (st : Word) (k : Nat) :
    (Status.succeed st).getLsbD k = (decide (3 ≤ k) && st.getLsbD k) := by
  by_cases hk : k < 3
  · have : ¬ 3 ≤ k := by omega
    simp [Status.succeed, hk, this]
  · have : 3 ≤ k := by omega
    simp [Status.succeed, hk, this]

/-! ## A command that ended in an error -/

@[simp] theorem Status.err_fail (st : Word) (e : ErrorKind) : Status.err (Status.fail st e) = errorCode e := by
  simp [Status.fail]

@[simp] theorem Status.ef_fail (st : Word) (e : ErrorKind) : Status.ef (Status.fail st e) = true := by
  simp [Status.fail, Status.ef]

theorem Status.getLsbD_fail (st : Word) (e : ErrorKind) (k : Nat) (hk : 4 ≤ k) :
    (Status.fail st e).getLsbD k = st.getLsbD k := by
  have h3 : k ≠ 3 := by omega
  have h3' : ¬ k < 3 := by omega
  simp [Status.fail, h3, h3']

/-! ## The verdict of CKVER -/

theorem Status.getLsbD_setVerdict (st : Word) (m : Bool) (k : Nat) :
    (Status.setVerdict st m).getLsbD k = if k = 4 then m else if k = 5 then (m || st.getLsbD 5) else st.getLsbD k := by
  unfold Status.setVerdict
  cases m
  · by_cases h4 : k = 4
    · simp [h4]
    · by_cases h5 : k = 5 <;> simp [h4, h5]
  · by_cases h5 : k = 5
    · simp [h5]
    · simp [h5]

@[simp] theorem Status.err_setVerdict (st : Word) (m : Bool) : Status.err (Status.setVerdict st m) = Status.err st := by
  unfold Status.setVerdict
  cases m <;> simp

/-! ## The host's accesses -/

theorem Status.getLsbD_hostWrite (st v : Word) (k : Nat) :
    (Status.hostWrite st v).getLsbD k = (st.getLsbD k && !((decide (k = 3) || decide (k = 5)) && v.getLsbD k)) := by
  unfold Status.hostWrite
  by_cases h3 : k = 3
  · subst h3
    cases hv : v.getLsbD 3 <;> cases hw : v.getLsbD 5 <;> simp
  · by_cases h5 : k = 5
    · subst h5
      cases hv : v.getLsbD 3 <;> cases hw : v.getLsbD 5 <;> simp
    · cases hv : v.getLsbD 3 <;> cases hw : v.getLsbD 5 <;> simp [h3, h5]

@[simp] theorem Status.err_hostWrite (st v : Word) : Status.err (Status.hostWrite st v) = Status.err st := by
  unfold Status.hostWrite
  cases v.getLsbD 3 <;> cases v.getLsbD 5 <;> simp

theorem Status.getLsbD_hostRead (st : Word) (k : Nat) :
    (Status.hostRead st).getLsbD k = (decide (k < 6) && st.getLsbD k) := by
  unfold Status.hostRead
  rw [BitVec.getLsbD_and, Bool.and_comm]
  congr 1
  by_cases hk : k < 32
  · have : ∀ j : Fin 32, (0x3F#32).getLsbD j.val = decide (j.val < 6) := by decide
    exact this ⟨k, hk⟩
  · rw [BitVec.getLsbD_of_ge _ k (by omega)]
    simp
    omega

end Sys2Proof.Machine
end

