-- ==== Sys2Proof/Laws/State.lean ====
section
/-! SUPPORT. The small lemmas of the state's updates: one per field per update, true by rfl, so that no later proof
unfolds a record update. -/
namespace Sys2Proof.Machine

/-! ## State.setA -/

@[simp] theorem State.setA_a (s : State) (v : Half) : (s.setA v).a = v := rfl
@[simp] theorem State.setA_l (s : State) (v : Half) : (s.setA v).l = s.l := rfl
@[simp] theorem State.setA_d (s : State) (v : Half) : (s.setA v).d = s.d := rfl
@[simp] theorem State.setA_rb (s : State) (v : Half) : (s.setA v).rb = s.rb := rfl
@[simp] theorem State.setA_w (s : State) (v : Half) : (s.setA v).w = s.w := rfl
@[simp] theorem State.setA_r (s : State) (v : Half) : (s.setA v).r = s.r := rfl
@[simp] theorem State.setA_acc (s : State) (v : Half) : (s.setA v).acc = s.acc := rfl
@[simp] theorem State.setA_expected (s : State) (v : Half) : (s.setA v).expected = s.expected := rfl
@[simp] theorem State.setA_status (s : State) (v : Half) : (s.setA v).status = s.status := rfl
@[simp] theorem State.setA_buf (s : State) (v : Half) : (s.setA v).buf = s.buf := rfl
@[simp] theorem State.setA_powerOn (s : State) (v : Half) : (s.setA v).powerOn = s.powerOn := rfl
@[simp] theorem State.setA_script (s : State) (v : Half) : (s.setA v).script = s.script := rfl
@[simp] theorem State.setA_response (s : State) (v : Half) : (s.setA v).response = s.response := rfl

/-! ## State.setL -/

@[simp] theorem State.setL_a (s : State) (v : Half) : (s.setL v).a = s.a := rfl
@[simp] theorem State.setL_l (s : State) (v : Half) : (s.setL v).l = v := rfl
@[simp] theorem State.setL_d (s : State) (v : Half) : (s.setL v).d = s.d := rfl
@[simp] theorem State.setL_rb (s : State) (v : Half) : (s.setL v).rb = s.rb := rfl
@[simp] theorem State.setL_w (s : State) (v : Half) : (s.setL v).w = s.w := rfl
@[simp] theorem State.setL_r (s : State) (v : Half) : (s.setL v).r = s.r := rfl
@[simp] theorem State.setL_acc (s : State) (v : Half) : (s.setL v).acc = s.acc := rfl
@[simp] theorem State.setL_expected (s : State) (v : Half) : (s.setL v).expected = s.expected := rfl
@[simp] theorem State.setL_status (s : State) (v : Half) : (s.setL v).status = s.status := rfl
@[simp] theorem State.setL_buf (s : State) (v : Half) : (s.setL v).buf = s.buf := rfl
@[simp] theorem State.setL_powerOn (s : State) (v : Half) : (s.setL v).powerOn = s.powerOn := rfl
@[simp] theorem State.setL_script (s : State) (v : Half) : (s.setL v).script = s.script := rfl
@[simp] theorem State.setL_response (s : State) (v : Half) : (s.setL v).response = s.response := rfl

/-! ## State.setD -/

@[simp] theorem State.setD_a (s : State) (v : Half) : (s.setD v).a = s.a := rfl
@[simp] theorem State.setD_l (s : State) (v : Half) : (s.setD v).l = s.l := rfl
@[simp] theorem State.setD_d (s : State) (v : Half) : (s.setD v).d = v := rfl
@[simp] theorem State.setD_rb (s : State) (v : Half) : (s.setD v).rb = s.rb := rfl
@[simp] theorem State.setD_w (s : State) (v : Half) : (s.setD v).w = s.w := rfl
@[simp] theorem State.setD_r (s : State) (v : Half) : (s.setD v).r = s.r := rfl
@[simp] theorem State.setD_acc (s : State) (v : Half) : (s.setD v).acc = s.acc := rfl
@[simp] theorem State.setD_expected (s : State) (v : Half) : (s.setD v).expected = s.expected := rfl
@[simp] theorem State.setD_status (s : State) (v : Half) : (s.setD v).status = s.status := rfl
@[simp] theorem State.setD_buf (s : State) (v : Half) : (s.setD v).buf = s.buf := rfl
@[simp] theorem State.setD_powerOn (s : State) (v : Half) : (s.setD v).powerOn = s.powerOn := rfl
@[simp] theorem State.setD_script (s : State) (v : Half) : (s.setD v).script = s.script := rfl
@[simp] theorem State.setD_response (s : State) (v : Half) : (s.setD v).response = s.response := rfl

/-! ## State.setRb -/

@[simp] theorem State.setRb_a (s : State) (v : Half) : (s.setRb v).a = s.a := rfl
@[simp] theorem State.setRb_l (s : State) (v : Half) : (s.setRb v).l = s.l := rfl
@[simp] theorem State.setRb_d (s : State) (v : Half) : (s.setRb v).d = s.d := rfl
@[simp] theorem State.setRb_rb (s : State) (v : Half) : (s.setRb v).rb = v := rfl
@[simp] theorem State.setRb_w (s : State) (v : Half) : (s.setRb v).w = s.w := rfl
@[simp] theorem State.setRb_r (s : State) (v : Half) : (s.setRb v).r = s.r := rfl
@[simp] theorem State.setRb_acc (s : State) (v : Half) : (s.setRb v).acc = s.acc := rfl
@[simp] theorem State.setRb_expected (s : State) (v : Half) : (s.setRb v).expected = s.expected := rfl
@[simp] theorem State.setRb_status (s : State) (v : Half) : (s.setRb v).status = s.status := rfl
@[simp] theorem State.setRb_buf (s : State) (v : Half) : (s.setRb v).buf = s.buf := rfl
@[simp] theorem State.setRb_powerOn (s : State) (v : Half) : (s.setRb v).powerOn = s.powerOn := rfl
@[simp] theorem State.setRb_script (s : State) (v : Half) : (s.setRb v).script = s.script := rfl
@[simp] theorem State.setRb_response (s : State) (v : Half) : (s.setRb v).response = s.response := rfl

/-! ## State.setW -/

@[simp] theorem State.setW_a (s : State) (v : Word) : (s.setW v).a = s.a := rfl
@[simp] theorem State.setW_l (s : State) (v : Word) : (s.setW v).l = s.l := rfl
@[simp] theorem State.setW_d (s : State) (v : Word) : (s.setW v).d = s.d := rfl
@[simp] theorem State.setW_rb (s : State) (v : Word) : (s.setW v).rb = s.rb := rfl
@[simp] theorem State.setW_w (s : State) (v : Word) : (s.setW v).w = v := rfl
@[simp] theorem State.setW_r (s : State) (v : Word) : (s.setW v).r = s.r := rfl
@[simp] theorem State.setW_acc (s : State) (v : Word) : (s.setW v).acc = s.acc := rfl
@[simp] theorem State.setW_expected (s : State) (v : Word) : (s.setW v).expected = s.expected := rfl
@[simp] theorem State.setW_status (s : State) (v : Word) : (s.setW v).status = s.status := rfl
@[simp] theorem State.setW_buf (s : State) (v : Word) : (s.setW v).buf = s.buf := rfl
@[simp] theorem State.setW_powerOn (s : State) (v : Word) : (s.setW v).powerOn = s.powerOn := rfl
@[simp] theorem State.setW_script (s : State) (v : Word) : (s.setW v).script = s.script := rfl
@[simp] theorem State.setW_response (s : State) (v : Word) : (s.setW v).response = s.response := rfl

/-! ## State.setR -/

@[simp] theorem State.setR_a (s : State) (v : Word) : (s.setR v).a = s.a := rfl
@[simp] theorem State.setR_l (s : State) (v : Word) : (s.setR v).l = s.l := rfl
@[simp] theorem State.setR_d (s : State) (v : Word) : (s.setR v).d = s.d := rfl
@[simp] theorem State.setR_rb (s : State) (v : Word) : (s.setR v).rb = s.rb := rfl
@[simp] theorem State.setR_w (s : State) (v : Word) : (s.setR v).w = s.w := rfl
@[simp] theorem State.setR_r (s : State) (v : Word) : (s.setR v).r = v := rfl
@[simp] theorem State.setR_acc (s : State) (v : Word) : (s.setR v).acc = s.acc := rfl
@[simp] theorem State.setR_expected (s : State) (v : Word) : (s.setR v).expected = s.expected := rfl
@[simp] theorem State.setR_status (s : State) (v : Word) : (s.setR v).status = s.status := rfl
@[simp] theorem State.setR_buf (s : State) (v : Word) : (s.setR v).buf = s.buf := rfl
@[simp] theorem State.setR_powerOn (s : State) (v : Word) : (s.setR v).powerOn = s.powerOn := rfl
@[simp] theorem State.setR_script (s : State) (v : Word) : (s.setR v).script = s.script := rfl
@[simp] theorem State.setR_response (s : State) (v : Word) : (s.setR v).response = s.response := rfl

/-! ## State.setAcc -/

@[simp] theorem State.setAcc_a (s : State) (v : Half) : (s.setAcc v).a = s.a := rfl
@[simp] theorem State.setAcc_l (s : State) (v : Half) : (s.setAcc v).l = s.l := rfl
@[simp] theorem State.setAcc_d (s : State) (v : Half) : (s.setAcc v).d = s.d := rfl
@[simp] theorem State.setAcc_rb (s : State) (v : Half) : (s.setAcc v).rb = s.rb := rfl
@[simp] theorem State.setAcc_w (s : State) (v : Half) : (s.setAcc v).w = s.w := rfl
@[simp] theorem State.setAcc_r (s : State) (v : Half) : (s.setAcc v).r = s.r := rfl
@[simp] theorem State.setAcc_acc (s : State) (v : Half) : (s.setAcc v).acc = v := rfl
@[simp] theorem State.setAcc_expected (s : State) (v : Half) : (s.setAcc v).expected = s.expected := rfl
@[simp] theorem State.setAcc_status (s : State) (v : Half) : (s.setAcc v).status = s.status := rfl
@[simp] theorem State.setAcc_buf (s : State) (v : Half) : (s.setAcc v).buf = s.buf := rfl
@[simp] theorem State.setAcc_powerOn (s : State) (v : Half) : (s.setAcc v).powerOn = s.powerOn := rfl
@[simp] theorem State.setAcc_script (s : State) (v : Half) : (s.setAcc v).script = s.script := rfl
@[simp] theorem State.setAcc_response (s : State) (v : Half) : (s.setAcc v).response = s.response := rfl

/-! ## State.setExpected -/

@[simp] theorem State.setExpected_a (s : State) (v : Half) : (s.setExpected v).a = s.a := rfl
@[simp] theorem State.setExpected_l (s : State) (v : Half) : (s.setExpected v).l = s.l := rfl
@[simp] theorem State.setExpected_d (s : State) (v : Half) : (s.setExpected v).d = s.d := rfl
@[simp] theorem State.setExpected_rb (s : State) (v : Half) : (s.setExpected v).rb = s.rb := rfl
@[simp] theorem State.setExpected_w (s : State) (v : Half) : (s.setExpected v).w = s.w := rfl
@[simp] theorem State.setExpected_r (s : State) (v : Half) : (s.setExpected v).r = s.r := rfl
@[simp] theorem State.setExpected_acc (s : State) (v : Half) : (s.setExpected v).acc = s.acc := rfl
@[simp] theorem State.setExpected_expected (s : State) (v : Half) : (s.setExpected v).expected = v := rfl
@[simp] theorem State.setExpected_status (s : State) (v : Half) : (s.setExpected v).status = s.status := rfl
@[simp] theorem State.setExpected_buf (s : State) (v : Half) : (s.setExpected v).buf = s.buf := rfl
@[simp] theorem State.setExpected_powerOn (s : State) (v : Half) : (s.setExpected v).powerOn = s.powerOn := rfl
@[simp] theorem State.setExpected_script (s : State) (v : Half) : (s.setExpected v).script = s.script := rfl
@[simp] theorem State.setExpected_response (s : State) (v : Half) : (s.setExpected v).response = s.response := rfl

/-! ## State.setStatus -/

@[simp] theorem State.setStatus_a (s : State) (v : Word) : (s.setStatus v).a = s.a := rfl
@[simp] theorem State.setStatus_l (s : State) (v : Word) : (s.setStatus v).l = s.l := rfl
@[simp] theorem State.setStatus_d (s : State) (v : Word) : (s.setStatus v).d = s.d := rfl
@[simp] theorem State.setStatus_rb (s : State) (v : Word) : (s.setStatus v).rb = s.rb := rfl
@[simp] theorem State.setStatus_w (s : State) (v : Word) : (s.setStatus v).w = s.w := rfl
@[simp] theorem State.setStatus_r (s : State) (v : Word) : (s.setStatus v).r = s.r := rfl
@[simp] theorem State.setStatus_acc (s : State) (v : Word) : (s.setStatus v).acc = s.acc := rfl
@[simp] theorem State.setStatus_expected (s : State) (v : Word) : (s.setStatus v).expected = s.expected := rfl
@[simp] theorem State.setStatus_status (s : State) (v : Word) : (s.setStatus v).status = v := rfl
@[simp] theorem State.setStatus_buf (s : State) (v : Word) : (s.setStatus v).buf = s.buf := rfl
@[simp] theorem State.setStatus_powerOn (s : State) (v : Word) : (s.setStatus v).powerOn = s.powerOn := rfl
@[simp] theorem State.setStatus_script (s : State) (v : Word) : (s.setStatus v).script = s.script := rfl
@[simp] theorem State.setStatus_response (s : State) (v : Word) : (s.setStatus v).response = s.response := rfl

/-! ## State.setBuf -/

@[simp] theorem State.setBuf_a (s : State) (v : Memory) : (s.setBuf v).a = s.a := rfl
@[simp] theorem State.setBuf_l (s : State) (v : Memory) : (s.setBuf v).l = s.l := rfl
@[simp] theorem State.setBuf_d (s : State) (v : Memory) : (s.setBuf v).d = s.d := rfl
@[simp] theorem State.setBuf_rb (s : State) (v : Memory) : (s.setBuf v).rb = s.rb := rfl
@[simp] theorem State.setBuf_w (s : State) (v : Memory) : (s.setBuf v).w = s.w := rfl
@[simp] theorem State.setBuf_r (s : State) (v : Memory) : (s.setBuf v).r = s.r := rfl
@[simp] theorem State.setBuf_acc (s : State) (v : Memory) : (s.setBuf v).acc = s.acc := rfl
@[simp] theorem State.setBuf_expected (s : State) (v : Memory) : (s.setBuf v).expected = s.expected := rfl
@[simp] theorem State.setBuf_status (s : State) (v : Memory) : (s.setBuf v).status = s.status := rfl
@[simp] theorem State.setBuf_buf (s : State) (v : Memory) : (s.setBuf v).buf = v := rfl
@[simp] theorem State.setBuf_powerOn (s : State) (v : Memory) : (s.setBuf v).powerOn = s.powerOn := rfl
@[simp] theorem State.setBuf_script (s : State) (v : Memory) : (s.setBuf v).script = s.script := rfl
@[simp] theorem State.setBuf_response (s : State) (v : Memory) : (s.setBuf v).response = s.response := rfl

/-! ## State.setScript -/

@[simp] theorem State.setScript_a (s : State) (v : List HostOp) : (s.setScript v).a = s.a := rfl
@[simp] theorem State.setScript_l (s : State) (v : List HostOp) : (s.setScript v).l = s.l := rfl
@[simp] theorem State.setScript_d (s : State) (v : List HostOp) : (s.setScript v).d = s.d := rfl
@[simp] theorem State.setScript_rb (s : State) (v : List HostOp) : (s.setScript v).rb = s.rb := rfl
@[simp] theorem State.setScript_w (s : State) (v : List HostOp) : (s.setScript v).w = s.w := rfl
@[simp] theorem State.setScript_r (s : State) (v : List HostOp) : (s.setScript v).r = s.r := rfl
@[simp] theorem State.setScript_acc (s : State) (v : List HostOp) : (s.setScript v).acc = s.acc := rfl
@[simp] theorem State.setScript_expected (s : State) (v : List HostOp) : (s.setScript v).expected = s.expected := rfl
@[simp] theorem State.setScript_status (s : State) (v : List HostOp) : (s.setScript v).status = s.status := rfl
@[simp] theorem State.setScript_buf (s : State) (v : List HostOp) : (s.setScript v).buf = s.buf := rfl
@[simp] theorem State.setScript_powerOn (s : State) (v : List HostOp) : (s.setScript v).powerOn = s.powerOn := rfl
@[simp] theorem State.setScript_script (s : State) (v : List HostOp) : (s.setScript v).script = v := rfl
@[simp] theorem State.setScript_response (s : State) (v : List HostOp) : (s.setScript v).response = s.response := rfl

/-! ## State.setResponse -/

@[simp] theorem State.setResponse_a (s : State) (v : Response) : (s.setResponse v).a = s.a := rfl
@[simp] theorem State.setResponse_l (s : State) (v : Response) : (s.setResponse v).l = s.l := rfl
@[simp] theorem State.setResponse_d (s : State) (v : Response) : (s.setResponse v).d = s.d := rfl
@[simp] theorem State.setResponse_rb (s : State) (v : Response) : (s.setResponse v).rb = s.rb := rfl
@[simp] theorem State.setResponse_w (s : State) (v : Response) : (s.setResponse v).w = s.w := rfl
@[simp] theorem State.setResponse_r (s : State) (v : Response) : (s.setResponse v).r = s.r := rfl
@[simp] theorem State.setResponse_acc (s : State) (v : Response) : (s.setResponse v).acc = s.acc := rfl
@[simp] theorem State.setResponse_expected (s : State) (v : Response) : (s.setResponse v).expected = s.expected := rfl
@[simp] theorem State.setResponse_status (s : State) (v : Response) : (s.setResponse v).status = s.status := rfl
@[simp] theorem State.setResponse_buf (s : State) (v : Response) : (s.setResponse v).buf = s.buf := rfl
@[simp] theorem State.setResponse_powerOn (s : State) (v : Response) : (s.setResponse v).powerOn = s.powerOn := rfl
@[simp] theorem State.setResponse_script (s : State) (v : Response) : (s.setResponse v).script = s.script := rfl
@[simp] theorem State.setResponse_response (s : State) (v : Response) : (s.setResponse v).response = v := rfl

/-! ## State.memWrite -/

@[simp] theorem State.memWrite_a (s : State) (i : Nat) (bs : List Byte) : (s.memWrite i bs).a = s.a := rfl
@[simp] theorem State.memWrite_l (s : State) (i : Nat) (bs : List Byte) : (s.memWrite i bs).l = s.l := rfl
@[simp] theorem State.memWrite_d (s : State) (i : Nat) (bs : List Byte) : (s.memWrite i bs).d = s.d := rfl
@[simp] theorem State.memWrite_rb (s : State) (i : Nat) (bs : List Byte) : (s.memWrite i bs).rb = s.rb := rfl
@[simp] theorem State.memWrite_w (s : State) (i : Nat) (bs : List Byte) : (s.memWrite i bs).w = s.w := rfl
@[simp] theorem State.memWrite_r (s : State) (i : Nat) (bs : List Byte) : (s.memWrite i bs).r = s.r := rfl
@[simp] theorem State.memWrite_acc (s : State) (i : Nat) (bs : List Byte) : (s.memWrite i bs).acc = s.acc := rfl
@[simp] theorem State.memWrite_expected (s : State) (i : Nat) (bs : List Byte) : (s.memWrite i bs).expected = s.expected := rfl
@[simp] theorem State.memWrite_status (s : State) (i : Nat) (bs : List Byte) : (s.memWrite i bs).status = s.status := rfl
@[simp] theorem State.memWrite_buf (s : State) (i : Nat) (bs : List Byte) : (s.memWrite i bs).buf = Memory.write s.buf i bs := rfl
@[simp] theorem State.memWrite_powerOn (s : State) (i : Nat) (bs : List Byte) : (s.memWrite i bs).powerOn = s.powerOn := rfl
@[simp] theorem State.memWrite_script (s : State) (i : Nat) (bs : List Byte) : (s.memWrite i bs).script = s.script := rfl
@[simp] theorem State.memWrite_response (s : State) (i : Nat) (bs : List Byte) : (s.memWrite i bs).response = s.response := rfl

/-! ## State.begin -/

@[simp] theorem State.begin_a (s : State) (rest : List HostOp) : (s.begin rest).a = s.a := rfl
@[simp] theorem State.begin_l (s : State) (rest : List HostOp) : (s.begin rest).l = s.l := rfl
@[simp] theorem State.begin_d (s : State) (rest : List HostOp) : (s.begin rest).d = s.d := rfl
@[simp] theorem State.begin_rb (s : State) (rest : List HostOp) : (s.begin rest).rb = s.rb := rfl
@[simp] theorem State.begin_w (s : State) (rest : List HostOp) : (s.begin rest).w = s.w := rfl
@[simp] theorem State.begin_r (s : State) (rest : List HostOp) : (s.begin rest).r = s.r := rfl
@[simp] theorem State.begin_acc (s : State) (rest : List HostOp) : (s.begin rest).acc = s.acc := rfl
@[simp] theorem State.begin_expected (s : State) (rest : List HostOp) : (s.begin rest).expected = s.expected := rfl
@[simp] theorem State.begin_status (s : State) (rest : List HostOp) : (s.begin rest).status = s.status := rfl
@[simp] theorem State.begin_buf (s : State) (rest : List HostOp) : (s.begin rest).buf = s.buf := rfl
@[simp] theorem State.begin_powerOn (s : State) (rest : List HostOp) : (s.begin rest).powerOn = s.powerOn := rfl
@[simp] theorem State.begin_script (s : State) (rest : List HostOp) : (s.begin rest).script = rest := rfl
@[simp] theorem State.begin_response (s : State) (rest : List HostOp) : (s.begin rest).response = .none := rfl

/-! ## resetState -/

@[simp] theorem resetState_a (s : State) : (resetState s).a = 0 := rfl
@[simp] theorem resetState_l (s : State) : (resetState s).l = 0 := rfl
@[simp] theorem resetState_d (s : State) : (resetState s).d = 0 := rfl
@[simp] theorem resetState_rb (s : State) : (resetState s).rb = 0 := rfl
@[simp] theorem resetState_w (s : State) : (resetState s).w = 0 := rfl
@[simp] theorem resetState_r (s : State) : (resetState s).r = 0 := rfl
@[simp] theorem resetState_acc (s : State) : (resetState s).acc = 0 := rfl
@[simp] theorem resetState_expected (s : State) : (resetState s).expected = 0 := rfl
@[simp] theorem resetState_status (s : State) : (resetState s).status = 0 := rfl
@[simp] theorem resetState_buf (s : State) : (resetState s).buf = s.buf := rfl
@[simp] theorem resetState_powerOn (s : State) : (resetState s).powerOn = s.powerOn := rfl
@[simp] theorem resetState_script (s : State) : (resetState s).script = s.script := rfl
@[simp] theorem resetState_response (s : State) : (resetState s).response = s.response := rfl

/-! ## The bytes of BUF under the other updates -/

@[simp] theorem State.byteAt_setA (s : State) (v : Half) (i : Nat) : (s.setA v).byteAt i = s.byteAt i := rfl
@[simp] theorem State.byteAt_setL (s : State) (v : Half) (i : Nat) : (s.setL v).byteAt i = s.byteAt i := rfl
@[simp] theorem State.byteAt_setD (s : State) (v : Half) (i : Nat) : (s.setD v).byteAt i = s.byteAt i := rfl
@[simp] theorem State.byteAt_setRb (s : State) (v : Half) (i : Nat) : (s.setRb v).byteAt i = s.byteAt i := rfl
@[simp] theorem State.byteAt_setW (s : State) (v : Word) (i : Nat) : (s.setW v).byteAt i = s.byteAt i := rfl
@[simp] theorem State.byteAt_setR (s : State) (v : Word) (i : Nat) : (s.setR v).byteAt i = s.byteAt i := rfl
@[simp] theorem State.byteAt_setAcc (s : State) (v : Half) (i : Nat) : (s.setAcc v).byteAt i = s.byteAt i := rfl
@[simp] theorem State.byteAt_setExpected (s : State) (v : Half) (i : Nat) : (s.setExpected v).byteAt i = s.byteAt i := rfl
@[simp] theorem State.byteAt_setStatus (s : State) (v : Word) (i : Nat) : (s.setStatus v).byteAt i = s.byteAt i := rfl
@[simp] theorem State.byteAt_setScript (s : State) (v : List HostOp) (i : Nat) : (s.setScript v).byteAt i = s.byteAt i := rfl
@[simp] theorem State.byteAt_setResponse (s : State) (v : Response) (i : Nat) : (s.setResponse v).byteAt i = s.byteAt i := rfl
@[simp] theorem State.byteAt_begin (s : State) (rest : List HostOp) (i : Nat) : (s.begin rest).byteAt i = s.byteAt i := rfl
@[simp] theorem State.byteAt_resetState (s : State) (i : Nat) : (resetState s).byteAt i = s.byteAt i := rfl

end Sys2Proof.Machine
end

