-- ==== Sys2Proof/Laws/Memory.lean ====
section
/-! SUPPORT. BUF: a read after a write, the frame of a write, and that every operation keeps the canonical form. -/
namespace Sys2Proof.Machine

/-! ## Looking an index up -/

theorem Memory.lookup_filter (m : Memory) (p : Nat → Bool) (i : Nat) :
    (m.filter (fun c => p c.1)).lookup i = if p i then m.lookup i else none := by
  induction m with
  | nil => simp
  | cons c m ih =>
    obtain ⟨k, b⟩ := c
    by_cases hki : i = k
    · subst hki
      by_cases hp : p i
      · simp [hp]
      · simp [hp, ih]
    · have hne : (i == k) = false := by simp [hki]
      by_cases hp : p k
      · simp [hp, List.lookup_cons, hne, ih]
      · simp [hp, List.lookup_cons, hne, ih]

theorem Memory.lookup_cellsAt (bs : List Byte) (a i : Nat) :
    (Memory.cellsAt a bs).lookup i = if a ≤ i then bs[i - a]? else none := by
  induction bs generalizing a with
  | nil => simp [Memory.cellsAt]
  | cons b bs ih =>
    rw [Memory.cellsAt, List.lookup_cons, ih]
    by_cases h : i = a
    · subst h; simp
    · have hne : (i == a) = false := by simp [h]
      rw [hne]
      by_cases ha : a ≤ i
      · have h1 : a + 1 ≤ i := by omega
        obtain ⟨j, rfl⟩ : ∃ j, i = a + 1 + j := ⟨i - (a + 1), by omega⟩
        have e1 : a + 1 + j - a = j + 1 := by omega
        simp [ha, e1]
      · have h1 : ¬ a + 1 ≤ i := by omega
        simp [ha, h1]

theorem Memory.lookup_write (m : Memory) (a : Nat) (bs : List Byte) (i : Nat) :
    (Memory.write m a bs).lookup i = if a ≤ i ∧ i < a + bs.length then bs[i - a]? else m.lookup i := by
  unfold Memory.write
  rw [List.lookup_append, List.lookup_append, Memory.lookup_filter m (fun k => decide (k < a)),
    Memory.lookup_filter m (fun k => decide (a + bs.length ≤ k)), Memory.lookup_cellsAt]
  by_cases h1 : i < a
  · have h2 : ¬ a ≤ i := by omega
    have h3 : ¬ a + bs.length ≤ i := by omega
    simp [h1, h2, h3]
  · have h2 : a ≤ i := by omega
    by_cases h3 : i < a + bs.length
    · have h4 : ¬ a + bs.length ≤ i := by omega
      simp [h1, h2, h3, h4]
    · have h4 : a + bs.length ≤ i := by omega
      have h5 : bs.length ≤ i - a := by omega
      simp [h1, h2, h3, h4, h5]

/-! ## Reading one byte after a write -/

/-- A read inside a write gives the byte written. -/
theorem Memory.read_write_inside (m : Memory) (p a : Nat) (bs : List Byte) (k : Nat) (hk : k < bs.length) :
    Memory.read (Memory.write m a bs) p (a + k) = bs[k] := by
  simp [Memory.read, Memory.lookup_write, hk]

/-- A read outside a write gives what it gave before. -/
theorem Memory.read_write_outside (m : Memory) (p a : Nat) (bs : List Byte) (i : Nat)
    (hi : i < a ∨ a + bs.length ≤ i) : Memory.read (Memory.write m a bs) p i = Memory.read m p i := by
  have h : ¬ (a ≤ i ∧ i < a + bs.length) := by omega
  simp [Memory.read, Memory.lookup_write, h]

theorem State.byteAt_memWrite_inside (s : State) (a : Nat) (bs : List Byte) (k : Nat) (hk : k < bs.length) :
    (s.memWrite a bs).byteAt (a + k) = bs[k] :=
  Memory.read_write_inside s.buf s.powerOn a bs k hk

theorem State.byteAt_memWrite_outside (s : State) (a : Nat) (bs : List Byte) (i : Nat)
    (hi : i < a ∨ a + bs.length ≤ i) : (s.memWrite a bs).byteAt i = s.byteAt i :=
  Memory.read_write_outside s.buf s.powerOn a bs i hi

/-! ## Reading a range -/

@[simp] theorem State.length_memRead (s : State) (a n : Nat) : (s.memRead a n).length = n := by simp [State.memRead]

@[simp] theorem State.getElem_memRead (s : State) (a n k : Nat) (hk : k < (s.memRead a n).length) :
    (s.memRead a n)[k] = s.byteAt (a + k) := by
  simp [State.memRead]

@[simp] theorem State.length_rangeBytes (s : State) : s.rangeBytes.length = s.l.toNat := by simp [State.rangeBytes]

/-- Two states whose bytes agree on a range read the same range. -/
theorem State.memRead_congr (s t : State) (a n : Nat) (h : ∀ k, k < n → t.byteAt (a + k) = s.byteAt (a + k)) :
    t.memRead a n = s.memRead a n := by
  apply List.ext_getElem
  · simp
  · intro k h1 _
    simpa using h k (by simpa using h1)

/-- A range that starts where another ends. -/
theorem State.memRead_append (s : State) (a m n : Nat) :
    s.memRead a (m + n) = s.memRead a m ++ s.memRead (a + m) n := by
  apply List.ext_getElem
  · simp
  · intro k h1 _
    by_cases hk : k < m
    · simp [hk]
    · have e : a + m + (k - m) = a + k := by omega
      simp [List.getElem_append, hk, e]

/-- Reading the range just written gives the bytes written. -/
theorem State.memRead_memWrite_same (s : State) (a : Nat) (bs : List Byte) :
    (s.memWrite a bs).memRead a bs.length = bs := by
  apply List.ext_getElem
  · simp
  · intro k _ h2
    simp [State.byteAt_memWrite_inside s a bs k h2]

/-- Reading a range that a write does not touch. -/
theorem State.memRead_memWrite_disjoint (s : State) (a : Nat) (bs : List Byte) (b n : Nat)
    (h : b + n ≤ a ∨ a + bs.length ≤ b) : (s.memWrite a bs).memRead b n = s.memRead b n :=
  State.memRead_congr s _ b n fun k hk => State.byteAt_memWrite_outside s a bs (b + k) (by omega)

/-! ## The canonical form -/

theorem Memory.mem_cellsAt {c : Host.Cell} {a : Nat} {bs : List Byte} (h : c ∈ Memory.cellsAt a bs) :
    a ≤ c.1 ∧ c.1 < a + bs.length := by
  induction bs generalizing a with
  | nil => simp [Memory.cellsAt] at h
  | cons b bs ih =>
    rw [Memory.cellsAt, List.mem_cons] at h
    rcases h with rfl | h
    · simp
    · have := ih h
      simp only [List.length_cons]
      omega

theorem Memory.pairwise_cellsAt (a : Nat) (bs : List Byte) :
    (Memory.cellsAt a bs).Pairwise (fun x y => x.1 < y.1) := by
  induction bs generalizing a with
  | nil => simp [Memory.cellsAt]
  | cons b bs ih =>
    rw [Memory.cellsAt, List.pairwise_cons]
    refine ⟨fun c hc => ?_, ih (a + 1)⟩
    have := (Memory.mem_cellsAt hc).1
    simp only
    omega

/-- A write inside BUF keeps the canonical form. -/
theorem Memory.write_wf (m : Memory) (a : Nat) (bs : List Byte) (hm : m.wf) (h : InBuf a bs.length) :
    (Memory.write m a bs).wf := by
  obtain ⟨hp, hb⟩ := hm
  unfold Memory.write
  constructor
  · rw [List.pairwise_append, List.pairwise_append]
    refine ⟨⟨hp.filter _, Memory.pairwise_cellsAt a bs, fun x hx y hy => ?_⟩, hp.filter _, fun x hx y hy => ?_⟩
    · have hx' : x.1 < a := by simpa using (List.mem_filter.mp hx).2
      have := (Memory.mem_cellsAt hy).1
      omega
    · have hy' : a + bs.length ≤ y.1 := by simpa using (List.mem_filter.mp hy).2
      rcases List.mem_append.mp hx with hx | hx
      · have hx' : x.1 < a := by simpa using (List.mem_filter.mp hx).2
        omega
      · have := (Memory.mem_cellsAt hx).2
        omega
  · intro c hc
    rcases List.mem_append.mp hc with hc | hc
    · rcases List.mem_append.mp hc with hc | hc
      · exact hb c (List.mem_filter.mp hc).1
      · have := (Memory.mem_cellsAt hc).2
        have h' : a + bs.length ≤ Config.bufBytes := h
        omega
    · exact hb c (List.mem_filter.mp hc).1

/-- BUF after power-on has the canonical form. -/
theorem Memory.reset_wf : State.reset.buf.wf := by decide

end Sys2Proof.Machine
end

