-- ==== Sys2Proof/Laws/Units.lean ====
section
/-! SUPPORT. What the four units' functions compute: swapseq and bswap32 (40_byteswap.md), the checksum sum
(41_checksum.md), the character table and textdec (42_lut_text.md), big-endian pairs (00_scope.md R11). -/
namespace Sys2Proof.Machine

/-! ## Big-endian pairs -/

theorem be16_lt (b0 b1 : Byte) : be16 b0 b1 < 65536 := by
  have h0 := b0.isLt
  have h1 := b1.isLt
  unfold be16
  omega

/-- A 16-bit value is the big-endian pair of its two bytes. -/
theorem be16_extract (v : Half) : be16 (v.extractLsb' 8 8) (v.extractLsb' 0 8) = v.toNat := by
  have := v.isLt
  simp only [be16, BitVec.extractLsb'_toNat, Nat.shiftRight_eq_div_pow]
  omega

/-! ## BSW -/

@[simp] theorem length_swapseq (bs : List Byte) : (swapseq bs).length = bs.length := by
  fun_induction swapseq bs with
  | case1 b0 b1 b2 b3 rest ih => simp [ih]
  | case2 => rfl

/-- The rule of the swap: byte j of a whole group comes from byte 3 - j (40_byteswap.md R101). -/
theorem getElem?_swapseq (bs : List Byte) (k j : Nat) (hj : j < 4) (h : 4 * k + 3 < bs.length) :
    (swapseq bs)[4 * k + j]? = bs[4 * k + 3 - j]? := by
  fun_induction swapseq bs generalizing k with
  | case1 b0 b1 b2 b3 rest ih =>
    match k with
    | 0 =>
      have hj' : j = 0 ∨ j = 1 ∨ j = 2 ∨ j = 3 := by omega
      rcases hj' with rfl | rfl | rfl | rfl <;> rfl
    | k + 1 =>
      have h' : 4 * k + 3 < rest.length := by
        simp only [List.length_cons] at h
        omega
      have e1 : 4 * (k + 1) + j = 4 * k + j + 1 + 1 + 1 + 1 := by omega
      have e2 : 4 * (k + 1) + 3 - j = 4 * k + 3 - j + 1 + 1 + 1 + 1 := by omega
      rw [e1, e2]
      simpa using ih k h'
  | case2 rest hr =>
    match rest, hr with
    | [], _ => simp at h
    | [_], _ => simp at h
    | [_, _], _ => simp at h
    | [_, _, _], _ => simp at h
    | b0 :: b1 :: b2 :: b3 :: r, hr => exact absurd rfl (hr b0 b1 b2 b3 r)

/-- The swap is its own inverse (40_byteswap.md R105). -/
@[simp] theorem swapseq_swapseq (bs : List Byte) : swapseq (swapseq bs) = bs := by
  fun_induction swapseq bs with
  | case1 b0 b1 b2 b3 rest ih => simp [swapseq, ih]
  | case2 rest hr => rw [swapseq]; exact hr

/-- Whole groups swap on their own (20_memory.md R65). -/
theorem swapseq_append (xs ys : List Byte) (h : xs.length % 4 = 0) :
    swapseq (xs ++ ys) = swapseq xs ++ swapseq ys := by
  fun_induction swapseq xs with
  | case1 b0 b1 b2 b3 rest ih =>
    have h' : rest.length % 4 = 0 := by
      simp only [List.length_cons] at h
      omega
    simp [swapseq, ih h']
  | case2 rest hr =>
    match rest, hr with
    | [], _ => simp
    | [_], _ => simp at h
    | [_, _], _ => simp at h
    | [_, _, _], _ => simp at h
    | b0 :: b1 :: b2 :: b3 :: r, hr => exact absurd rfl (hr b0 b1 b2 b3 r)

/-- Bit k of a swapped word. -/
theorem getLsbD_bswap32 (v : Word) (k : Nat) (hk : k < 32) :
    (bswap32 v).getLsbD k = v.getLsbD (8 * (3 - k / 8) + k % 8) := by
  unfold bswap32
  simp only [BitVec.getLsbD_append, BitVec.getLsbD_extractLsb']
  by_cases h1 : k < 8
  · have e1 : k / 8 = 0 := by omega
    have e2 : k % 8 = k := by omega
    simp [h1, e1, e2]
  · by_cases h2 : k < 16
    · have e1 : k / 8 = 1 := by omega
      have e2 : 16 + (k - 8) = 8 * 2 + k % 8 := by omega
      have e3 : k - 8 < 8 := by omega
      simp [h1, e1, e2, e3]
    · by_cases h3 : k < 24
      · have e1 : k / 8 = 2 := by omega
        have e2 : 8 + (k - 8 - 8) = 8 * 1 + k % 8 := by omega
        have e3 : k - 8 - 8 < 8 := by omega
        have e4 : ¬ k - 8 < 8 := by omega
        simp [h1, e1, e2, e3, e4]
      · have e1 : k / 8 = 3 := by omega
        have e2 : k - 8 - 8 - 8 = k % 8 := by omega
        have e3 : k % 8 < 8 := by omega
        have e4 : ¬ k - 8 < 8 := by omega
        have e5 : ¬ k - 8 - 8 < 8 := by omega
        simp [h1, e1, e2, e3, e4, e5]

/-- SWAPW's function is its own inverse (40_byteswap.md R105). -/
theorem bswap32_bswap32 (v : Word) : bswap32 (bswap32 v) = v := by
  apply BitVec.eq_of_getLsbD_eq
  intro k hk
  rw [getLsbD_bswap32 _ k hk, getLsbD_bswap32 _ _ (by omega)]
  congr 1
  omega

/-! ## CKS -/

/-- The sum of an even piece and what follows it (41_checksum.md R121). -/
theorem sumWords_append (xs ys : List Byte) (h : xs.length % 2 = 0) :
    sumWords (xs ++ ys) = sumWords xs + sumWords ys := by
  fun_induction sumWords xs with
  | case1 b0 b1 rest ih =>
    have h' : rest.length % 2 = 0 := by
      simp only [List.length_cons] at h
      omega
    simp [sumWords, ih h', Nat.add_assoc]
  | case2 rest hr =>
    match rest, hr with
    | [], _ => simp
    | [_], _ => simp at h
    | b0 :: b1 :: r, hr => exact absurd rfl (hr b0 b1 r)

/-- A dangling byte adds nothing (41_checksum.md R122). -/
theorem sumWords_dangling (xs : List Byte) (b : Byte) (h : xs.length % 2 = 0) :
    sumWords (xs ++ [b]) = sumWords xs := by
  rw [sumWords_append xs [b] h]
  simp [sumWords]

theorem sum16_append (xs ys : List Byte) (h : xs.length % 2 = 0) : sum16 (xs ++ ys) = sum16 xs + sum16 ys := by
  simp [sum16, sumWords_append xs ys h, BitVec.ofNat_add]

theorem toNat_sum16 (bs : List Byte) : (sum16 bs).toNat = sumWords bs % 2 ^ 16 := BitVec.toNat_ofNat _ _

/-- What a byte of a checksum word counts: 256 at an even distance, 1 at an odd one. -/
def byteWeight (k : Nat) : Nat := if k % 2 = 0 then 256 else 1

/-- Changing one byte of the summed words changes the sum by its weight (41_checksum.md R130). -/
theorem sumWords_set (bs : List Byte) (k : Nat) (b : Byte) (h : k < 2 * (bs.length / 2)) :
    sumWords (bs.set k b) + byteWeight k * (bs.getD k 0).toNat = sumWords bs + byteWeight k * b.toNat := by
  fun_induction sumWords bs generalizing k with
  | case1 b0 b1 rest ih =>
    match k with
    | 0 => simp [sumWords, byteWeight, be16]; omega
    | 1 => simp [sumWords, byteWeight, be16]; omega
    | k + 2 =>
      have h' : k < 2 * (rest.length / 2) := by
        simp only [List.length_cons] at h
        omega
      have hw : byteWeight (k + 2) = byteWeight k := by simp [byteWeight]
      have := ih k h'
      simp only [List.set_cons_succ, sumWords, List.getD_cons_succ, hw]
      omega
  | case2 rest hr =>
    match rest, hr with
    | [], _ => simp at h
    | [_], _ => simp at h
    | b0 :: b1 :: r, hr => exact absurd rfl (hr b0 b1 r)

/-- A sum whose one byte changed is another sum (41_checksum.md R130). -/
theorem sum16_set_ne (bs : List Byte) (k : Nat) (b : Byte) (h : k < 2 * (bs.length / 2)) (hb : bs.getD k 0 ≠ b) :
    sum16 (bs.set k b) ≠ sum16 bs := by
  intro he
  have h1 := sumWords_set bs k b h
  have h2 : sumWords (bs.set k b) % 2 ^ 16 = sumWords bs % 2 ^ 16 := by
    rw [← toNat_sum16, ← toNat_sum16, he]
  have h3 : (bs.getD k 0).toNat ≠ b.toNat := fun h => hb (BitVec.eq_of_toNat_eq h)
  have h4 := (bs.getD k 0).isLt
  have h5 := b.isLt
  unfold byteWeight at h1
  split at h1 <;> omega

/-- The sum of zero bytes is zero. -/
theorem sumWords_replicate_zero (n : Nat) : sumWords (List.replicate n (0 : Byte)) = 0 := by
  induction n using Nat.strongRecOn with
  | _ n ih =>
    match n with
    | 0 => rfl
    | 1 => rfl
    | n + 2 => simpa [List.replicate_succ, sumWords, be16] using ih n (by omega)

/-! ## LUT -/

/-- The entries of the character table (42_lut_text.md R151), and that none of them is 0x00 or '0' (R152, R156). -/
theorem lut_ne {b c : Byte} (h : lut b = some c) : c ≠ 0x00#8 ∧ c ≠ 0x30#8 := by
  have key : c.toNat ≠ 0 ∧ c.toNat ≠ 0x30 := by
    have hb := b.isLt
    unfold lut at h
    simp only at h
    split at h
    · rw [← Option.some.inj h, BitVec.toNat_add]
      simp only [BitVec.toNat_ofNat]
      omega
    · split at h
      · rw [← Option.some.inj h, BitVec.toNat_sub]
        simp only [BitVec.toNat_ofNat]
        omega
      · split at h
        · rw [← Option.some.inj h, BitVec.toNat_sub]
          simp only [BitVec.toNat_ofNat]
          omega
        · split at h
          · rw [← Option.some.inj h]; decide
          · split at h
            · rw [← Option.some.inj h]; decide
            · split at h
              · rw [← Option.some.inj h]; decide
              · exact absurd h (by simp)
  constructor
  · rintro rfl
    exact key.1 rfl
  · rintro rfl
    exact key.2 rfl

theorem textdec_eq_filterMap (bs : List Byte) : textdec bs = bs.filterMap lut := by
  induction bs with
  | nil => rfl
  | cons b bs ih =>
    rw [textdec, List.filterMap_cons]
    cases lut b <;> simp [ih]

theorem length_textdec_le (bs : List Byte) : (textdec bs).length ≤ bs.length := by
  rw [textdec_eq_filterMap]
  exact List.length_filterMap_le lut bs

theorem textdec_append (xs ys : List Byte) : textdec (xs ++ ys) = textdec xs ++ textdec ys := by
  simp [textdec_eq_filterMap]

/-- What textdec emits is an entry of the table. -/
theorem mem_textdec {bs : List Byte} {c : Byte} (h : c ∈ textdec bs) : ∃ b ∈ bs, lut b = some c := by
  rw [textdec_eq_filterMap] at h
  exact List.mem_filterMap.mp h

end Sys2Proof.Machine
end

