-- ==== Sys2Proof/Laws/Exec.lean ====
section
/-! SUPPORT. What the ends of a command, the shared forms and every command can do, said once. -/
namespace Sys2Proof.Machine

/-! ## The frames -/

theorem SameOperands.refl (s : State) : SameOperands s s := ⟨rfl, rfl, rfl, rfl, rfl⟩

theorem SameHost.refl (s : State) : SameHost s s := ⟨rfl, rfl, rfl⟩

/-! ## `done` and `raise` -/

/-- `done` answers a next state, and this one. -/
theorem done_eq (s : State) : done s = .next (s.setStatus (Status.succeed s.status)) := rfl

/-- `raise` answers a next state, and this one. -/
theorem raise_eq (e : ErrorKind) (s : State) : raise e s = .next (s.setStatus (Status.fail s.status e)) := rfl

theorem statusDone_of_succeed {s t : State} (h : t.status = Status.succeed s.status) : StatusDone s t := by
  refine ⟨by rw [h]; exact Status.err_succeed _, fun k hk => ?_⟩
  rw [h, Status.getLsbD_succeed]
  simp [hk]

/-- What `raise` leaves (60_exceptions.md R214). -/
theorem raise_errorOnly (e : ErrorKind) (s : State) : ∃ t, raise e s = .next t ∧ ErrorOnly (errorCode e) s t :=
  ⟨_, raise_eq e s, Status.err_fail _ e, Status.ef_fail _ e, fun k hk => Status.getLsbD_fail _ e k hk, rfl⟩

/-! ## The shared ends of the units -/

/-- A command that ends by writing R alone. -/
theorem done_setR (v : Word) (s : State) : ∃ t, done (s.setR v) = .next t ∧ ResultOnly v s t :=
  ⟨_, done_eq _, rfl, statusDone_of_succeed rfl, rfl⟩

/-- How the accumulator commands end. -/
theorem accDone_accOnly (v : Half) (s : State) : ∃ t, accDone v s = .next t ∧ AccOnly v s t :=
  ⟨_, done_eq _, rfl, rfl, statusDone_of_succeed rfl, rfl⟩

/-- What CKVER's end leaves: the two checksums, the verdict, and everything else as before (41_checksum.md R127). -/
theorem verifyDone_next (c e : Half) (s : State) :
    ∃ t, verifyDone c e s = .next t ∧ t.acc = c ∧ t.expected = e ∧ t.r.toNat = e.toNat * 2 ^ 16 + c.toNat ∧
      (Status.mm t.status = true ↔ c ≠ e) ∧
      (Status.mms t.status = true ↔ (c ≠ e ∨ Status.mms s.status = true)) ∧
      Status.err t.status = 0 ∧ Status.ef t.status = Status.ef s.status ∧
      (∀ k, 6 ≤ k → t.status.getLsbD k = s.status.getLsbD k) ∧
      t = { s with acc := t.acc, expected := t.expected, r := t.r, status := t.status } := by
  have hst : ∀ k, (Status.succeed (Status.setVerdict s.status (decide (c ≠ e)))).getLsbD k
      = (decide (3 ≤ k) && if k = 4 then decide (c ≠ e) else if k = 5 then (decide (c ≠ e) || s.status.getLsbD 5)
        else s.status.getLsbD k) := fun k => by rw [Status.getLsbD_succeed, Status.getLsbD_setVerdict]
  refine ⟨_, rfl, rfl, rfl, ?_, ?_, ?_, Status.err_succeed _, ?_, fun k hk => ?_, rfl⟩
  · show (e ++ c).toNat = _
    rw [BitVec.toNat_append, ← Nat.shiftLeft_add_eq_or_of_lt c.isLt, Nat.shiftLeft_eq]
  · exact (Bool.eq_iff_iff.mp (hst 4)).trans (by simp)
  · exact (Bool.eq_iff_iff.mp (hst 5)).trans (by simp [Status.mms])
  · exact (hst 3).trans (by simp [Status.ef])
  · have h3 : 3 ≤ k := by omega
    have h4 : k ≠ 4 := by omega
    have h5 : k ≠ 5 := by omega
    exact (hst k).trans (by simp [h3, h4, h5])

/-- What CKWR's end leaves: the checksum in the record's field, big-endian, in ACC and in R (41_checksum.md R131). -/
theorem storeChecksum_next (c : Half) (s : State) :
    ∃ t, storeChecksum c s = .next t ∧ t.acc = c ∧ t.r = c.setWidth 32 ∧
      t.byteAt (s.rb.toNat + Config.ckField) = c.extractLsb' 8 8 ∧
      t.byteAt (s.rb.toNat + Config.ckField + 1) = c.extractLsb' 0 8 ∧
      SameBytesOutside (s.rb.toNat + Config.ckField) 2 s t ∧ StatusDone s t ∧
      t = { s with acc := t.acc, r := t.r, buf := t.buf, status := t.status } := by
  refine ⟨_, rfl, rfl, rfl, ?_, ?_, fun i hi => ?_, statusDone_of_succeed rfl, rfl⟩
  · exact State.byteAt_memWrite_inside s (s.rb.toNat + Config.ckField) [c.extractLsb' 8 8, c.extractLsb' 0 8] 0 (by simp)
  · exact State.byteAt_memWrite_inside s (s.rb.toNat + Config.ckField) [c.extractLsb' 8 8, c.extractLsb' 0 8] 1 (by simp)
  · exact State.byteAt_memWrite_outside s (s.rb.toNat + Config.ckField) [c.extractLsb' 8 8, c.extractLsb' 0 8] i hi

/-- What the text commands' end leaves: the text at D and its length in R (42_lut_text.md R156, R157). -/
theorem textDone_next (bs : List Byte) (s : State) (hb : bs.length < 2 ^ 32) :
    ∃ t, textDone bs s = .next t ∧ t.r.toNat = bs.length ∧
      (∀ k code, bs[k]? = some code → t.byteAt (s.d.toNat + k) = code) ∧
      SameBytesOutside s.d.toNat bs.length s t ∧ StatusDone s t ∧
      t = { s with r := t.r, buf := t.buf, status := t.status } := by
  refine ⟨_, rfl, ?_, fun k code hk => ?_, fun i hi => ?_, statusDone_of_succeed rfl, rfl⟩
  · show (BitVec.ofNat 32 bs.length).toNat = _
    rw [BitVec.toNat_ofNat, Nat.mod_eq_of_lt hb]
  · obtain ⟨h, rfl⟩ := List.getElem?_eq_some_iff.mp hk
    exact State.byteAt_memWrite_inside s s.d.toNat bs k h
  · exact State.byteAt_memWrite_outside s s.d.toNat bs i hi

/-! ## The rules' own terms -/

theorem sumWords_eq_sum (bs : List Byte) :
    sumWords bs
      = ((List.range (bs.length / 2)).map (fun k => (bs.getD (2 * k) 0).toNat * 256 + (bs.getD (2 * k + 1) 0).toNat)).sum := by
  fun_induction sumWords bs with
  | case1 b0 b1 rest ih =>
    have h : (b0 :: b1 :: rest).length / 2 = rest.length / 2 + 1 := by
      simp only [List.length_cons]
      omega
    rw [h, List.range_succ_eq_map, List.map_cons, List.sum_cons, List.map_map, ih]
    congr 1
  | case2 rest hr =>
    match rest, hr with
    | [], _ => rfl
    | [_], _ => simp
    | b0 :: b1 :: r, hr => exact absurd rfl (hr b0 b1 r)

/-- The sum of a range's bytes is the rule's sum over BUF (41_checksum.md R120). -/
theorem sumWords_memRead (s : State) (a n : Nat) : sumWords (s.memRead a n) = s.wordSum a n := by
  rw [sumWords_eq_sum, State.wordSum, State.length_memRead]
  refine congrArg List.sum (List.map_congr_left fun k hk => ?_)
  have hk' : k < n / 2 := List.mem_range.mp hk
  rw [List.getD_eq_getElem _ _ (by rw [State.length_memRead]; omega),
    List.getD_eq_getElem _ _ (by rw [State.length_memRead]; omega), State.getElem_memRead, State.getElem_memRead,
    Nat.add_assoc]

theorem toNat_sum16_memRead (s : State) (a n : Nat) : (sum16 (s.memRead a n)).toNat = s.wordSum a n % 2 ^ 16 := by
  rw [toNat_sum16, sumWords_memRead]

/-- The computed checksum of a record (41_checksum.md R127). -/
theorem toNat_recordSum (s : State) : s.recordSum.toNat = s.wordSum s.rb.toNat Config.ckSpan % 2 ^ 16 :=
  toNat_sum16_memRead s s.rb.toNat Config.ckSpan

/-- The stored checksum of a record (41_checksum.md R127). -/
theorem toNat_recordStored (s : State) :
    s.recordStored.toNat
      = (s.byteAt (s.rb.toNat + Config.ckField)).toNat * 256 + (s.byteAt (s.rb.toNat + Config.ckField + 1)).toNat :=
  (BitVec.toNat_ofNat _ 16).trans (Nat.mod_eq_of_lt (be16_lt _ _))

/-- The decoded text of a range is the rule's codes over BUF (42_lut_text.md R154). -/
theorem textdec_memRead (s : State) (a n : Nat) : textdec (s.memRead a n) = s.codes a n := by
  rw [textdec_eq_filterMap, State.memRead, List.filterMap_map, State.codes]
  rfl

theorem length_codes_le (s : State) (a n : Nat) : (s.codes a n).length ≤ n := by
  rw [← textdec_memRead]
  exact le_of_le_of_eq (length_textdec_le _) (State.length_memRead s a n)

/-- The state the text commands end in. -/
theorem textDone_eq (bs : List Byte) (s : State) :
    textDone bs s = .next (((s.memWrite s.d.toNat bs).setR (BitVec.ofNat 32 bs.length)).setStatus
      (Status.succeed s.status)) := rfl

/-- The three outcomes of an FMX read. -/
theorem readRecord_cases (offset n : Nat) (v : Word) (s : State) :
    (¬ s.recordInBuf ∧ readRecord offset n v s = raise .outOfRange s) ∨
    (s.recordInBuf ∧ ¬ InRecord offset n ∧ readRecord offset n v s = raise .outOfRange s) ∨
    (s.recordInBuf ∧ InRecord offset n ∧ readRecord offset n v s = done (s.setR v)) := by
  unfold readRecord
  by_cases h1 : s.recordInBuf
  · by_cases h2 : InRecord offset n
    · exact .inr (.inr ⟨h1, h2, by simp [h1, h2]⟩)
    · exact .inr (.inl ⟨h1, h2, by simp [h1, h2]⟩)
  · exact .inl ⟨h1, by simp [h1]⟩

/-! ## The conditional commands: one equation for each of their cases -/

theorem execSwapb_outOfRange {s : State} (h : ¬ s.rangeInBuf) : execSwapb s = raise .outOfRange s := by
  unfold execSwapb
  rw [if_pos h]

theorem execSwapb_malformed {s : State} (h : s.rangeInBuf) (h4 : s.l.toNat % Config.swapGroup ≠ 0) :
    execSwapb s = raise .malformedInput s := by
  unfold execSwapb
  rw [if_neg (not_not_intro h), if_pos h4]

theorem execSwapb_swaps {s : State} (h : s.rangeInBuf) (h4 : s.l.toNat % Config.swapGroup = 0) :
    execSwapb s = done (s.memWrite s.a.toNat (swapseq s.rangeBytes)) := by
  unfold execSwapb
  rw [if_neg (not_not_intro h), if_neg (not_not_intro h4)]

theorem execCkadd_outOfRange {s : State} (h : ¬ s.rangeInBuf) : execCkadd s = raise .outOfRange s := by
  unfold execCkadd
  rw [if_pos h]

theorem execCkadd_adds {s : State} (h : s.rangeInBuf) :
    execCkadd s = accDone (s.acc + sum16 s.rangeBytes) s := by
  unfold execCkadd
  rw [if_neg (not_not_intro h)]

theorem execCksum_outOfRange {s : State} (h : ¬ s.rangeInBuf) : execCksum s = raise .outOfRange s := by
  unfold execCksum
  rw [if_pos h]

theorem execCksum_sums {s : State} (h : s.rangeInBuf) : execCksum s = accDone (sum16 s.rangeBytes) s := by
  unfold execCksum
  rw [if_neg (not_not_intro h)]

theorem execCkver_outOfRange {s : State} (h : ¬ s.recordInBuf) : execCkver s = raise .outOfRange s := by
  unfold execCkver
  rw [if_pos h]

theorem execCkver_verifies {s : State} (h : s.recordInBuf) :
    execCkver s = verifyDone s.recordSum s.recordStored s := by
  unfold execCkver
  rw [if_neg (not_not_intro h)]

theorem execCkwr_outOfRange {s : State} (h : ¬ s.recordInBuf) : execCkwr s = raise .outOfRange s := by
  unfold execCkwr
  rw [if_pos h]

theorem execCkwr_stores {s : State} (h : s.recordInBuf) : execCkwr s = storeChecksum s.recordSum s := by
  unfold execCkwr
  rw [if_neg (not_not_intro h)]

theorem execTxtdec_outOfRange {s : State} (h : ¬ s.rangeInBuf ∨ ¬ InBuf s.d.toNat s.l.toNat) :
    execTxtdec s = raise .outOfRange s := by
  unfold execTxtdec
  by_cases h1 : s.rangeInBuf
  · rw [if_neg (not_not_intro h1), if_pos (h.resolve_left (not_not_intro h1))]
  · rw [if_pos h1]

theorem execTxtdec_decodes {s : State} (h : s.rangeInBuf) (hd : InBuf s.d.toNat s.l.toNat) :
    execTxtdec s = textDone (textdec s.rangeBytes) s := by
  unfold execTxtdec
  rw [if_neg (not_not_intro h), if_neg (not_not_intro hd)]

theorem execTxtname_outOfRange {s : State} (h : ¬ s.recordInBuf ∨ ¬ InBuf s.d.toNat Config.nameLen) :
    execTxtname s = raise .outOfRange s := by
  unfold execTxtname
  by_cases h1 : s.recordInBuf
  · rw [if_neg (not_not_intro h1), if_pos (h.resolve_left (not_not_intro h1))]
  · rw [if_pos h1]

theorem execTxtname_decodes {s : State} (h : s.recordInBuf) (hd : InBuf s.d.toNat Config.nameLen) :
    execTxtname s = textDone (textdec (s.memRead (s.recordIndex Config.nameOff) Config.nameLen)) s := by
  unfold execTxtname
  rw [if_neg (not_not_intro h), if_neg (not_not_intro hd)]

theorem readRecord_outOfRange {offset n : Nat} {v : Word} {s : State} (h : ¬ s.recordInBuf ∨ ¬ InRecord offset n) :
    readRecord offset n v s = raise .outOfRange s := by
  rcases readRecord_cases offset n v s with ⟨_, e⟩ | ⟨_, _, e⟩ | ⟨h1, h2, _⟩
  · exact e
  · exact e
  · exact absurd h (by simp only [not_or, not_not]; exact ⟨h1, h2⟩)

theorem readRecord_reads {offset n : Nat} {v : Word} {s : State} (h : s.recordInBuf) (hn : InRecord offset n) :
    readRecord offset n v s = done (s.setR v) := by
  rcases readRecord_cases offset n v s with ⟨h1, _⟩ | ⟨_, h2, _⟩ | ⟨_, _, e⟩
  · exact absurd h h1
  · exact absurd hn h2
  · exact e

/-! ## Every command -/

/-- What a command can do to the state when it succeeds: the operands and the model's own fields stay, BUF stays or has
one range inside it written, EXP and the verdict bits are CKVER's alone. -/
structure Succeeds (i : Instr) (s t : State) : Prop where
  operands : SameOperands s t
  host : SameHost s t
  buf : t.buf = s.buf ∨ ∃ a bs, InBuf a bs.length ∧ t.buf = Memory.write s.buf a bs
  expected : i ≠ .ckver → t.expected = s.expected
  status : t.status = Status.succeed s.status ∨
    (i = .ckver ∧ ∃ m, t.status = Status.succeed (Status.setVerdict s.status m))

/-- A command that answers `r` either raised an error or succeeded: there is no third outcome (44_host_control.md
R195). -/
def Outcomes (i : Instr) (s : State) (r : Result) : Prop :=
  (∃ e, r = raise e s) ∨ ∃ t, r = .next t ∧ Succeeds i s t

theorem outcomes_raise (i : Instr) (s : State) (e : ErrorKind) : Outcomes i s (raise e s) := .inl ⟨e, rfl⟩

theorem outcomes_done_setR (i : Instr) (s : State) (v : Word) : Outcomes i s (done (s.setR v)) :=
  .inr ⟨_, done_eq _, ⟨rfl, rfl, rfl, rfl, rfl⟩, ⟨rfl, rfl, rfl⟩, .inl rfl, fun _ => rfl, .inl rfl⟩

theorem outcomes_accDone (i : Instr) (s : State) (v : Half) : Outcomes i s (accDone v s) :=
  .inr ⟨_, done_eq _, ⟨rfl, rfl, rfl, rfl, rfl⟩, ⟨rfl, rfl, rfl⟩, .inl rfl, fun _ => rfl, .inl rfl⟩

theorem outcomes_readRecord (i : Instr) (offset n : Nat) (v : Word) (s : State) :
    Outcomes i s (readRecord offset n v s) := by
  rcases readRecord_cases offset n v s with ⟨_, h⟩ | ⟨_, _, h⟩ | ⟨_, _, h⟩ <;> rw [h]
  · exact outcomes_raise i s _
  · exact outcomes_raise i s _
  · exact outcomes_done_setR i s v

theorem outcomes_textDone (i : Instr) (s : State) (bs : List Byte) (h : InBuf s.d.toNat bs.length) :
    Outcomes i s (textDone bs s) :=
  .inr ⟨_, textDone_eq bs s, ⟨rfl, rfl, rfl, rfl, rfl⟩, ⟨rfl, rfl, rfl⟩, .inr ⟨_, bs, h, rfl⟩, fun _ => rfl, .inl rfl⟩

theorem outcomes_swapb (s : State) : Outcomes .swapb s (execSwapb s) := by
  unfold execSwapb
  split
  · exact outcomes_raise _ s _
  · split
    · exact outcomes_raise _ s _
    · rename_i h _
      exact .inr ⟨_, done_eq _, ⟨rfl, rfl, rfl, rfl, rfl⟩, ⟨rfl, rfl, rfl⟩,
        .inr ⟨s.a.toNat, swapseq s.rangeBytes, by simpa using h, rfl⟩, fun _ => rfl, .inl rfl⟩

theorem outcomes_verifyDone (s : State) (c e : Half) : Outcomes .ckver s (verifyDone c e s) :=
  .inr ⟨_, done_eq _, ⟨rfl, rfl, rfl, rfl, rfl⟩, ⟨rfl, rfl, rfl⟩, .inl rfl, fun h => absurd rfl h, .inr ⟨rfl, _, rfl⟩⟩

theorem outcomes_ckver (s : State) : Outcomes .ckver s (execCkver s) := by
  unfold execCkver
  split
  · exact outcomes_raise _ s _
  · exact outcomes_verifyDone s _ _

theorem outcomes_storeChecksum (s : State) (c : Half) (h : s.recordInBuf) : Outcomes .ckwr s (storeChecksum c s) := by
  refine .inr ⟨_, done_eq _, ⟨rfl, rfl, rfl, rfl, rfl⟩, ⟨rfl, rfl, rfl⟩, .inr ⟨_, _, ?_, rfl⟩, fun _ => rfl, .inl rfl⟩
  have h' : s.rb.toNat + 5200 ≤ 32768 := h
  show s.rb.toNat + 0x1352 + 2 ≤ 32768
  omega

theorem outcomes_ckwr (s : State) : Outcomes .ckwr s (execCkwr s) := by
  unfold execCkwr
  split
  · exact outcomes_raise _ s _
  · rename_i h
    exact outcomes_storeChecksum s _ (by simpa using h)

theorem outcomes_txtdec (s : State) : Outcomes .txtdec s (execTxtdec s) := by
  unfold execTxtdec
  split
  · exact outcomes_raise _ s _
  · split
    · exact outcomes_raise _ s _
    · rename_i h
      apply outcomes_textDone
      have h' : InBuf s.d.toNat s.l.toNat := by simpa using h
      have := length_textdec_le s.rangeBytes
      rw [State.length_rangeBytes] at this
      exact le_trans (Nat.add_le_add_left this _) h'

theorem outcomes_txtname (s : State) : Outcomes .txtname s (execTxtname s) := by
  unfold execTxtname
  split
  · exact outcomes_raise _ s _
  · split
    · exact outcomes_raise _ s _
    · rename_i h
      apply outcomes_textDone
      have h' : InBuf s.d.toNat Config.nameLen := by simpa using h
      have := length_textdec_le (s.memRead (s.recordIndex Config.nameOff) Config.nameLen)
      rw [State.length_memRead] at this
      exact le_trans (Nat.add_le_add_left this _) h'

theorem outcomes_range (i : Instr) (s : State) (v : Half) :
    Outcomes i s (if ¬ s.rangeInBuf then raise .outOfRange s else accDone v s) := by
  split
  · exact outcomes_raise i s _
  · exact outcomes_accDone i s v

/-- Every command on every state. -/
theorem exec_outcomes (i : Instr) (s : State) : Outcomes i s (exec i s) := by
  cases i with
  | nop => exact .inr ⟨_, done_eq s, ⟨rfl, rfl, rfl, rfl, rfl⟩, ⟨rfl, rfl, rfl⟩, .inl rfl, fun _ => rfl, .inl rfl⟩
  | swapw => exact outcomes_done_setR _ s _
  | swapb => exact outcomes_swapb s
  | ckclr => exact outcomes_accDone _ s _
  | ckaddw => exact outcomes_accDone _ s _
  | ckadd => exact outcomes_range _ s _
  | cksum => exact outcomes_range _ s _
  | ckver => exact outcomes_ckver s
  | ckwr => exact outcomes_ckwr s
  | lutb =>
    show Outcomes _ s (execLutb s)
    unfold execLutb
    split
    · exact outcomes_done_setR _ s _
    · exact outcomes_done_setR _ s _
  | txtdec => exact outcomes_txtdec s
  | txtname => exact outcomes_txtname s
  | rd16 imm =>
    show Outcomes _ s (execRd16 imm s)
    unfold execRd16
    exact outcomes_readRecord _ _ _ _ s
  | rd8 imm =>
    show Outcomes _ s (execRd8 imm s)
    unfold execRd8
    exact outcomes_readRecord _ _ _ _ s
  | rdbit imm bit =>
    show Outcomes _ s (execRdbit imm bit s)
    unfold execRdbit
    exact outcomes_readRecord _ _ _ _ s
  | fld sel =>
    show Outcomes _ s (execFld sel s)
    unfold execFld
    split
    · exact outcomes_raise _ s _
    · exact outcomes_readRecord _ _ _ _ s

/-- What a next state of a command is. -/
theorem exec_cases {i : Instr} {s t : State} (h : exec i s = .next t) :
    (∃ e, t = s.setStatus (Status.fail s.status e)) ∨ Succeeds i s t := by
  rcases exec_outcomes i s with ⟨e, he⟩ | ⟨u, hu, hs⟩
  · rw [h, raise_eq, Host.Outcome.next.injEq] at he
    exact .inl ⟨e, he⟩
  · rw [h, Host.Outcome.next.injEq] at hu
    exact .inr (hu ▸ hs)

end Sys2Proof.Machine
end

