-- ==== Sys2Proof/Laws/PerInstr.lean ====
section
/-! SUPPORT. A family of statements over all commands, one lemma per constructor: the encoder fills the fields as
30_encoding.md R81 and R82 say. -/
namespace Sys2Proof.Laws.EncodeFields

/-- The word of a command has the OPC of its mnemonic, RSV 0, BIT 0 unless its format uses BIT, and IMM 0 unless its
format uses IMM (30_encoding.md R82, R85). -/
def Statement (i : Instr) : Prop :=
  cmdOpc (encode i) = opcodeByte (instrOpcode i) ∧ cmdRsv (encode i) = 0 ∧
    (formatUsesBit (opcodeFormat (instrOpcode i)) = false → cmdBit (encode i) = 0) ∧
    (formatUsesImm (opcodeFormat (instrOpcode i)) = false → cmdImm (encode i) = 0)

theorem nop : Statement .nop := by simp [Statement, encode, instrImm, instrBit]
theorem swapw : Statement .swapw := by simp [Statement, encode, instrImm, instrBit]
theorem swapb : Statement .swapb := by simp [Statement, encode, instrImm, instrBit]
theorem ckclr : Statement .ckclr := by simp [Statement, encode, instrImm, instrBit]
theorem ckaddw : Statement .ckaddw := by simp [Statement, encode, instrImm, instrBit]
theorem ckadd : Statement .ckadd := by simp [Statement, encode, instrImm, instrBit]
theorem cksum : Statement .cksum := by simp [Statement, encode, instrImm, instrBit]
theorem ckver : Statement .ckver := by simp [Statement, encode, instrImm, instrBit]
theorem ckwr : Statement .ckwr := by simp [Statement, encode, instrImm, instrBit]
theorem lutb : Statement .lutb := by simp [Statement, encode, instrImm, instrBit]
theorem txtdec : Statement .txtdec := by simp [Statement, encode, instrImm, instrBit]
theorem txtname : Statement .txtname := by simp [Statement, encode, instrImm, instrBit]
theorem rd16 (imm : Half) : Statement (.rd16 imm) := by
  simp [Statement, encode, instrBit, instrOpcode, opcodeFormat, formatUsesImm]
theorem rd8 (imm : Half) : Statement (.rd8 imm) := by
  simp [Statement, encode, instrBit, instrOpcode, opcodeFormat, formatUsesImm]
theorem rdbit (imm : Half) (bit : BitVec 3) : Statement (.rdbit imm bit) := by
  simp [Statement, encode, instrOpcode, opcodeFormat, formatUsesBit, formatUsesImm]
theorem fld (sel : Half) : Statement (.fld sel) := by
  simp [Statement, encode, instrBit, instrOpcode, opcodeFormat, formatUsesImm]

end Sys2Proof.Laws.EncodeFields
end

