-- ==== Sys2Proof/Tests/Slice0.lean ====
section
/-! SUPPORT. Tests of the model's own work: the WellFormed smoke test, words written out from the spec's patterns, the
spec's vectors (95_test_vectors.md) on single commands and operations, and a witness for every statement with
hypotheses. -/
namespace Sys2Proof.Tests

open Sys2Proof.Machine

/-- What a result's next state satisfies; false for a refusal. -/
def after (r : Result) (p : State → Bool) : Bool :=
  match r with
  | .next t => p t
  | .fault _ => false
  | .refused _ => false

/-- A step's response. -/
def answers (r : Result) (v : Response) : Bool := after r (fun t => decide (t.response = v))

/-- A state with bytes written at an index, A, L and D. -/
def rangeState (i : Nat) (bs : List Byte) (a l d : Half) : State :=
  { (State.reset.memWrite i bs) with a := a, l := l, d := d }

/-- The host about to perform one operation. -/
def about (op : HostOp) : State := State.reset.setScript [op]

/-! ## WellFormed -/

theorem test_wellFormed_last_selector : (Instr.fld 5#16).wellFormed = true := by decide
theorem test_wellFormed_refuses_selector_6 : (Instr.fld 6#16).wellFormed = false := by decide
theorem test_wellFormed_refuses_selector_65535 : (Instr.fld 65535#16).wellFormed = false := by decide

/-! ## Decoding: words written out from 30_encoding.md R85 -/

theorem test_decode_nop : decode 0b00000000000000000000000000000000#32 = .ok .nop := by decide
theorem test_decode_swapw : decode 0b00000000000000000000000000010000#32 = .ok .swapw := by decide
theorem test_decode_swapb : decode 0b00000000000000000000000000010001#32 = .ok .swapb := by decide
theorem test_decode_ckclr : decode 0b00000000000000000000000000100000#32 = .ok .ckclr := by decide
theorem test_decode_ckaddw : decode 0b00000000000000000000000000100001#32 = .ok .ckaddw := by decide
theorem test_decode_ckadd : decode 0b00000000000000000000000000100010#32 = .ok .ckadd := by decide
theorem test_decode_cksum : decode 0b00000000000000000000000000100011#32 = .ok .cksum := by decide
theorem test_decode_ckver : decode 0b00000000000000000000000000100100#32 = .ok .ckver := by decide
theorem test_decode_ckwr : decode 0b00000000000000000000000000100101#32 = .ok .ckwr := by decide
theorem test_decode_lutb : decode 0b00000000000000000000000000110000#32 = .ok .lutb := by decide
theorem test_decode_txtdec : decode 0b00000000000000000000000000110001#32 = .ok .txtdec := by decide
theorem test_decode_txtname : decode 0b00000000000000000000000000110010#32 = .ok .txtname := by decide
theorem test_decode_rd16 : decode 0b00000000001101000000000001000000#32 = .ok (.rd16 0x34#16) := by decide
theorem test_decode_rd8 : decode 0b00010011010101000000000001000001#32 = .ok (.rd8 0x1354#16) := by decide
theorem test_decode_rdbit : decode 0b00000000101001010000001101000010#32 = .ok (.rdbit 0xA5#16 3#3) := by decide
theorem test_decode_fld : decode 0b00000000000001010000000001000011#32 = .ok (.fld 5#16) := by decide

/-- V-CTL-2, V-CTL-5, V-CTL-10, V-CTL-6, V-FMX-17: one word for each condition of R86. -/
theorem test_decode_illegal :
    decode 0x00000001#32 = .error .unassignedOpcode ∧ decode 0x00000810#32 = .error .reservedNotZero ∧
      decode 0x00000111#32 = .error .unusedBitNotZero ∧ decode 0x00010010#32 = .error .unusedImmNotZero ∧
      decode 0x00060043#32 = .error .selectorNotInTable := by decide

/-- V-CTL-3, V-CTL-4, V-CTL-7, V-CTL-8 are illegal too. -/
theorem test_illegal_words :
    IllegalWord 0x000000FF#32 ∧ IllegalWord 0x00000100#32 ∧ IllegalWord 0x0000F842#32 ∧ IllegalWord 0x00010000#32 := by
  decide

/-- The words of V-FMX-3, V-FMX-5, V-FMX-9 come from the encoder. -/
theorem test_encode_fmx :
    encode (.rd16 0x34#16) = 0x00340040#32 ∧ encode (.rdbit 0xA5#16 3#3) = 0x00A50342#32 ∧
      encode (.fld 2#16) = 0x00020043#32 := by decide

/-- A row's bits given in 16 bits only: IMM reads as 0. -/
theorem test_decodeTableWord_short : decodeTableWord 16 0x0041 = some (.rd8 0#16) := by decide

/-! ## BSW -/

/-- V-BSW-2. -/
theorem test_swapw : after (exec .swapw (State.reset.setW 0x12345678#32)) (fun t => t.r == 0x78563412#32) = true := by
  decide

/-- V-BSW-8: groups are counted from A, an odd index. -/
theorem test_swapb_odd_start :
    after (exec .swapb (rangeState 0 [0, 1, 2, 3, 4, 5, 6, 7, 8, 0] 1 8 0))
      (fun t => t.memRead 0 10 == [0, 4, 3, 2, 1, 8, 7, 6, 5, 0] && t.status == 0) = true := by decide

/-- V-BSW-13, V-BSW-14, V-BSW-15, V-BSW-12: the errors and their order. -/
theorem test_swapb_errors :
    after (exec .swapb (rangeState 0 [] 0 6 0)) (fun t => t.status == 0x9#32) = true ∧
      after (exec .swapb (rangeState 0 [] 32767 6 0)) (fun t => t.status == 0xA#32) = true ∧
      after (exec .swapb (rangeState 0 [] 0xFFFC 8 0)) (fun t => t.status == 0xA#32) = true ∧
      after (exec .swapb (rangeState 0 [] 32765 4 0)) (fun t => t.status == 0xA#32) = true := by decide

/-! ## CKS -/

/-- V-CK-1. -/
theorem test_ckclr :
    after (exec .ckclr (State.reset.setAcc 0xB48F#16)) (fun t => t.acc == 0 && t.r == 0 && t.status == 0) = true := by
  decide

/-- V-CK-4 and V-CK-5: the wrap sets no flag, and W[31:16] is ignored. -/
theorem test_ckaddw :
    after (exec .ckaddw ((State.reset.setAcc 0xFFFF#16).setW 1#32)) (fun t => t.acc == 0 && t.status == 0) = true ∧
      after (exec .ckaddw ((State.reset.setAcc 0x1234#16).setW 0xFFFF0000#32)) (fun t => t.acc == 0x1234#16) = true := by
  decide

/-- V-CK-13, V-CK-14 and V-CK-15: a range, and the two sides of the end of BUF. -/
theorem test_ckadd :
    after (exec .ckadd (rangeState 0 [0, 0, 0, 0x98] 0 4 0)) (fun t => t.acc == 0x98#16) = true ∧
      after (exec .ckadd (rangeState 0 [] 32767 1 0)) (fun t => t.acc == 0 && t.status == 0) = true ∧
      after (exec .ckadd (rangeState 0 [] 32768 1 0)) (fun t => t.status == 0xA#32) = true := by decide

/-- V-CK-3, V-CK-7 and V-CK-8: the header template, a dangling byte, an odd start. -/
theorem test_cksum :
    after (exec .cksum (rangeState 0 headerTemplate 0 32 0)) (fun t => t.acc == 0xB48F#16 && t.r == 0xB48F#32) = true ∧
      after (exec .cksum (rangeState 0 headerTemplate 0 3 0)) (fun t => t.acc == 0) = true ∧
      after (exec .cksum (rangeState 0 headerTemplate 1 4 0)) (fun t => t.acc == 0x9809#16) = true := by decide

/-- `n` zero bytes. -/
def zeros (n : Nat) : List Byte := List.replicate n 0

theorem length_zeros (n : Nat) : (zeros n).length = n := List.length_replicate

theorem sum_zeros (n : Nat) : sum16 (zeros n) = 0#16 := by rw [sum16, zeros, sumWords_replicate_zero]

/-- The summed bytes of V-CK-22's record: zero but for offset 0x35. -/
def rupees99 : List Byte := zeros 0x34 ++ ([0x00#8, 0x63#8] ++ zeros (0x1352 - 0x36))

theorem length_rupees99 : rupees99.length = 0x1352 := by
  rw [rupees99, List.length_append, List.length_append, length_zeros, length_zeros]
  rfl

theorem sum_rupees99 : sum16 rupees99 = 0x63#16 := by
  rw [rupees99, sum16_append _ _ (by rw [length_zeros]), sum16_append _ _ rfl, sum_zeros, sum_zeros]
  decide

/-- V-CK-22's record at 0x1470, its checksum field holding `e`. -/
def rupeesRecord (e : List Byte) : State :=
  ((State.reset.memWrite 0x1470 rupees99).memWrite (0x1470 + 0x1352) e).setRb 0x1470#16

theorem recordInBuf_rupeesRecord (e : List Byte) : (rupeesRecord e).recordInBuf := by
  show 0x1470 + 5200 ≤ 32768
  omega

theorem recordSum_rupeesRecord (e : List Byte) : (rupeesRecord e).recordSum = 0x63#16 := by
  have h1 := State.memRead_memWrite_same State.reset 0x1470 rupees99
  have h2 := State.memRead_memWrite_disjoint (State.reset.memWrite 0x1470 rupees99) (0x1470 + 0x1352) e 0x1470 0x1352
    (.inl (by omega))
  rw [length_rupees99] at h1
  rw [h1] at h2
  exact (congrArg sum16 h2).trans sum_rupees99

theorem recordStored_rupeesRecord (b : Byte) : (rupeesRecord [0x00#8, b]).recordStored = b.setWidth 16 := by
  have h0 := State.byteAt_memWrite_inside (State.reset.memWrite 0x1470 rupees99) (0x1470 + 0x1352) [0x00#8, b] 0
    (by simp)
  have h1 := State.byteAt_memWrite_inside (State.reset.memWrite 0x1470 rupees99) (0x1470 + 0x1352) [0x00#8, b] 1
    (by simp)
  have h2 : (rupeesRecord [0x00#8, b]).be16At (0x1470 + 0x1352) = be16 0x00#8 b := congrArg₂ be16 h0 h1
  exact (congrArg (BitVec.ofNat 16) h2).trans (by
    apply BitVec.eq_of_toNat_eq
    simp [be16])

/-- V-CK-22: CKWR stores 00 63. -/
theorem test_ckwr :
    ∃ t, exec .ckwr (rupeesRecord []) = .next t ∧ t.byteAt (0x1470 + 0x1352) = 0x00#8 ∧
      t.byteAt (0x1470 + 0x1353) = 0x63#8 ∧ t.acc = 0x63#16 := by
  have h : exec .ckwr (rupeesRecord []) = storeChecksum 0x63#16 (rupeesRecord []) := by
    rw [← recordSum_rupeesRecord []]
    exact execCkwr_stores (recordInBuf_rupeesRecord [])
  refine ⟨_, h, ?_, ?_, rfl⟩
  · exact State.byteAt_memWrite_inside (rupeesRecord []) (0x1470 + 0x1352) [0x00#8, 0x63#8] 0 (by simp)
  · exact State.byteAt_memWrite_inside (rupeesRecord []) (0x1470 + 0x1352) [0x00#8, 0x63#8] 1 (by simp)

theorem exec_ckver_rupeesRecord (b : Byte) :
    exec .ckver (rupeesRecord [0x00#8, b]) = verifyDone 0x63#16 (b.setWidth 16) (rupeesRecord [0x00#8, b]) := by
  rw [← recordSum_rupeesRecord [0x00#8, b], ← recordStored_rupeesRecord b]
  exact execCkver_verifies (recordInBuf_rupeesRecord _)

/-- CKVER on V-CK-22's record with 00 64 stored: MM and MMS set, ERR 0, EXP above ACC in R (as V-CK-19). -/
theorem test_ckver_mismatch :
    ∃ t, exec .ckver (rupeesRecord [0x00#8, 0x64#8]) = .next t ∧ t.status = 0x30#32 ∧ t.r = 0x00640063#32 ∧
      t.acc = 0x63#16 ∧ t.expected = 0x64#16 := by
  refine ⟨_, exec_ckver_rupeesRecord 0x64#8, ?_, by decide, rfl, by decide⟩
  show Status.succeed (Status.setVerdict 0 _) = _
  decide

/-- V-CK-21: one index too far. -/
theorem test_ckver_out_of_range :
    after (exec .ckver (State.reset.setRb 27569#16)) (fun t => t.status == 0xA#32 && t.expected == 0) = true := by decide

/-! ## LUT -/

/-- The grid of 42_lut_text.md R151, its row of high nibble `hi` (0 for an empty entry: no output code is 0). -/
def gridRow : Nat → List Nat
  | 0x0 => [0, 0x31, 0x32, 0x33, 0x34, 0x35, 0x36, 0x37, 0x38, 0x39, 0, 0, 0, 0, 0, 0]
  | 0xA => [0, 0, 0, 0, 0, 0, 0, 0, 0, 0, 0, 0x41, 0x42, 0x43, 0x44, 0x45]
  | 0xB => [0x46, 0x47, 0x48, 0x49, 0x4A, 0x4B, 0x4C, 0x4D, 0x4E, 0x4F, 0x50, 0x51, 0x52, 0x53, 0x54, 0x55]
  | 0xC => [0x56, 0x57, 0x58, 0x59, 0x5A, 0x61, 0x62, 0x63, 0x64, 0x65, 0x66, 0x67, 0x68, 0x69, 0x6A, 0x6B]
  | 0xD => [0x6C, 0x6D, 0x6E, 0x6F, 0x70, 0x71, 0x72, 0x73, 0x74, 0x75, 0x76, 0x77, 0x78, 0x79, 0x7A, 0x20]
  | 0xE => [0, 0, 0, 0, 0x2D, 0, 0, 0, 0, 0, 0x2E, 0, 0, 0, 0, 0]
  | _ => [0, 0, 0, 0, 0, 0, 0, 0, 0, 0, 0, 0, 0, 0, 0, 0]

/-- Row `hi` of the model's table. -/
def lutRow (hi : Nat) : List Nat :=
  (List.range 16).map (fun lo => ((lut (BitVec.ofNat 8 (16 * hi + lo))).getD 0).toNat)

theorem test_lut_grid_low : ∀ hi ∈ [0, 1, 2, 3, 4, 5, 6, 7], lutRow hi = gridRow hi := by decide
theorem test_lut_grid_high : ∀ hi ∈ [8, 9, 10, 11, 12, 13, 14, 15], lutRow hi = gridRow hi := by decide

/-- V-LUT-9 and V-LUT-1: W[31:8] is ignored. -/
theorem test_lutb :
    after (exec .lutb (State.reset.setW 0xFFFFFFDE#32)) (fun t => t.r == 0x17A#32) = true ∧
      after (exec .lutb (State.reset.setW 0xFFFFFF00#32)) (fun t => t.r == 0) = true := by decide

/-- V-LUT-19: source and destination overlap, and every read comes first. -/
theorem test_txtdec_overlap :
    after (exec .txtdec (rangeState 0 [0xAB, 0xAC, 0xAD, 0xAE, 0, 0] 0 4 1))
      (fun t => t.memRead 0 6 == [0xAB, 0x41, 0x42, 0x43, 0x44, 0x00] && t.r == 4) = true := by decide

/-- V-LUT-18 and V-LUT-20: unmapped bytes are dropped in place, and the destination is checked for L bytes. -/
theorem test_txtdec_drops :
    after (exec .txtdec (rangeState 0 [0x00, 0xAB, 0x50, 0xC5, 0xDF, 0x01] 0 6 0))
      (fun t => t.memRead 0 6 == [0x41, 0x61, 0x20, 0x31, 0xDF, 0x01] && t.r == 4) = true ∧
      after (exec .txtdec (rangeState 0 [] 0 4 32765)) (fun t => t.status == 0xA#32) = true := by decide

/-- V-LUT-22's name at RB = 0x20. -/
def nameState (d : Half) : State :=
  { (State.reset.memWrite 0x44 [0xB6, 0xCD, 0xD2, 0xCF, 0xDF, 0xDF, 0xDF, 0xDF]) with rb := 0x20, d := d }

/-- V-LUT-22: "Link" and four spaces. -/
theorem test_txtname :
    after (exec .txtname (nameState 0x7F00))
      (fun t => t.memRead 0x7F00 8 == [0x4C, 0x69, 0x6E, 0x6B, 0x20, 0x20, 0x20, 0x20] && t.r == 8) = true := by decide

/-- V-LUT-23 and V-LUT-24: the two sides of the end of BUF. -/
theorem test_txtname_bounds :
    after (exec .txtname (nameState 32761)) (fun t => t.status == 0xA#32) = true ∧
      after (exec .txtname (nameState 32760)) (fun t => t.status == 0 && t.r == 8) = true := by decide

/-! ## FMX -/

/-- Some bytes of the record of V-FMX-3 to V-FMX-18 at RB = 0x20, and R = 0xDEAD. -/
def fieldState : State :=
  { ((((State.reset.memWrite 0x4E [0x00, 0x50, 0x00, 0x30]).memWrite 0x54 [0x01, 0xF4, 0x00]).memWrite 0xC5
      [0x08]).memWrite (0x20 + 0x1354) [0x02]) with rb := 0x20, r := 0xDEAD }

/-- V-FMX-3 and V-FMX-18: an odd offset is allowed. -/
theorem test_rd16 :
    after (exec (.rd16 0x34) fieldState) (fun t => t.r == 0x1F4#32) = true ∧
      after (exec (.rd16 0x35) fieldState) (fun t => t.r == 0xF400#32) = true := by decide

/-- V-FMX-14: the field passes the end of the record. -/
theorem test_rd16_bound :
    after (exec (.rd16 5199) fieldState) (fun t => t.r == 0xDEAD#32 && t.status == 0xA#32) = true := by decide

/-- V-FMX-4, V-FMX-16, V-FMX-20. -/
theorem test_rd8 :
    after (exec (.rd8 0x1354) fieldState) (fun t => t.r == 2) = true ∧
      after (exec (.rd8 5200) fieldState) (fun t => t.status == 0xA#32) = true ∧
      after (exec (.rd8 0) (State.reset.setRb 27569#16)) (fun t => t.status == 0xA#32) = true := by decide

/-- V-FMX-5 and V-FMX-6. -/
theorem test_rdbit :
    after (exec (.rdbit 0xA5 3) fieldState) (fun t => t.r == 1) = true ∧
      after (exec (.rdbit 0xA5 2) fieldState) (fun t => t.r == 0) = true := by decide

/-- V-FMX-7, V-FMX-9, V-FMX-10, V-FMX-12. -/
theorem test_fld :
    after (exec (.fld 0) fieldState) (fun t => t.r == 0x1F4#32) = true ∧
      after (exec (.fld 2) fieldState) (fun t => t.r == 0x50#32) = true ∧
      after (exec (.fld 3) fieldState) (fun t => t.r == 0x30#32) = true ∧
      after (exec (.fld 5) fieldState) (fun t => t.r == 2) = true := by decide

/-! ## Control, the host's operations and the step -/

/-- V-CTL-1: NOP clears ERR and keeps EF. -/
theorem test_nop : after (exec .nop (State.reset.setStatus 0xA#32)) (fun t => t.status == 0x8#32) = true := by decide

/-- V-CTL-5: an illegal word in a step. -/
theorem test_step_illegal :
    after (step (State.reset.withFetchWord 32 0x810)) (fun t => t.status == 0xB#32 && t.r == 0 && t.script == []) = true :=
  by decide

/-- V-CTL-11 and V-CTL-12. -/
theorem test_status_write :
    after (step ((about (.regWrite .status 0x28#32)).setStatus 0x38#32)) (fun t => t.status == 0x10#32) = true ∧
      after (step ((about (.regWrite .status 0#32)).setStatus 0x38#32)) (fun t => t.status == 0x38#32) = true := by decide

/-- V-CTL-13 and V-CTL-14. -/
theorem test_regWrite :
    after (step (about (.regWrite .a 0x12345678#32))) (fun t => t.a == 0x5678#16) = true ∧
      after (step ((about (.regWrite .r 0#32)).setR 7#32)) (fun t => t.r == 7#32) = true := by decide

/-- V-CTL-15 and V-CTL-16. -/
theorem test_regRead :
    answers (step (about (.regRead .cmd))) (.word 0) = true ∧
      answers (step (about (.windowRead 0x0040#16 32))) (.word 0) = true ∧
      answers (step ((about (.windowRead 0x0008#16 32)).setA 0x5678#16)) (.word 0x5678#32) = true := by decide

/-- V-CTL-17, and a BufWrite by window offset. -/
theorem test_bufWrite :
    step (about (.bufWrite 32768 0)) = .refused (.bufferIndexOutOfRange 32768) ∧
      after (step (about (.windowWrite 0x8005#16 8 0xAB#32))) (fun t => t.byteAt 5 == 0xAB#8) = true := by
  exact ⟨rfl, by decide⟩

/-- V-CTL-18: an unwritten byte answers its draw, whatever it is. -/
theorem test_bufRead_draw :
    step (about (.bufRead 5)) = .next (State.reset.setResponse (.byte (Config.powerOnByte 0 5))) := rfl

/-- 44_host_control.md R198: the widths that are refused. -/
theorem test_refused_widths :
    step (about (.windowRead 0x0008#16 16)) = .refused (.registerAccessWidth 16) ∧
      step (about (.windowRead 0x8000#16 32)) = .refused (.bufferAccessWidth 32) ∧
      step (about (.windowRead 0x0002#16 32)) = .refused (.noRegisterAtOffset 0x0002#16) := ⟨rfl, rfl, rfl⟩

/-- 70_reset_and_hazards.md R240: Reset clears the registers and keeps BUF. -/
theorem test_reset :
    after (step (((about .reset).memWrite 9 [0x55]).setA 7)) (fun t => t.a == 0 && t.byteAt 9 == 0x55#8) = true := by
  decide

/-- A step with nothing to perform (log entry 3). -/
theorem test_idle : step State.reset = .next State.reset := rfl

/-! ## Notation and the container layout -/

/-- 30_encoding.md R90: its own examples, and what an assembler refuses. -/
theorem test_asm :
    asmLine "SWAPB".toList = .command .swapb ∧ asmLine "RD16 0x0034".toList = .command (.rd16 0x34) ∧
      asmLine "RDBIT 0x00A5, 3  ; a flag".toList = .command (.rdbit 0xA5 3) ∧
      asmLine "FLD RUPEES".toList = .command (.fld 0) ∧ asmLine "FLD 0".toList = .command (.fld 0) := by decide

theorem test_asm_refuses :
    asmLine "RD16 65536".toList = .refused ∧ asmLine "RDBIT 0, 8".toList = .refused ∧
      asmLine "SWAPB 1".toList = .refused ∧ asmLine "RD16".toList = .refused ∧ asmLine "; note".toList = .blank := by decide

/-- 30_encoding.md R91. -/
theorem test_pseudo :
    hostVerify 0x20 = [.regWrite .rb 0x20, .regWrite .cmd 0x24] ∧
      hostPoke 3 [1, 2] = [.bufWrite 3 1, .bufWrite 4 2] ∧ hostPeek 3 2 = [.bufRead 3, .bufRead 4] := by decide

/-- 20_memory.md R64 and 41_checksum.md R128. -/
theorem test_container :
    (List.range 9).map chunkStart
        = [0x0000, 0x0020, 0x1470, 0x28C0, 0x3D10, 0x5160, 0x65B0, 0x7A00, 0x8000] ∧
      recordIdentity 0x5160#16 = some (.backup, 2) := by decide

/-! ## Witnesses: states and operands that meet the hypotheses of the statements -/

theorem witness_DecodeOfEncodeIsTheCommand : (Instr.rdbit 0xFFFF#16 7#3).wellFormed = true := by decide
theorem witness_EncodeOfDecodeIsTheWord : decode 0xFFFF0742#32 = .ok (.rdbit 0xFFFF#16 7#3) := by decide

theorem witness_IllegalWordsRaiseIllegalCommand :
    IllegalWord 0x44#32 ∧ IllegalWord 0x00008000#32 ∧ IllegalWord 0x00000141#32 ∧ IllegalWord 0x80000000#32 ∧
      IllegalWord 0x00060043#32 ∧ ¬ IllegalWord 0x00050043#32 :=
  ⟨.inl (by decide), .inr (.inl (by decide)), .inr (.inr (.inl (by decide))), .inr (.inr (.inr (.inl (by decide)))),
    .inr (.inr (.inr (.inr (by decide)))), by decide⟩

theorem witness_StepRunsTheDecodedCommand :
    (about (.regWrite .cmd 0x11#32)).script = [.regWrite .cmd 0x11#32] ∧
      (HostOp.regWrite .cmd 0x11#32).writesReg .cmd 0x11#32 ∧
      (HostOp.windowWrite 0#16 32 0x11#32).writesReg .cmd 0x11#32 ∧ decode 0x11#32 = .ok .swapb :=
  ⟨rfl, .inl rfl, .inr ⟨0#16, rfl, rfl⟩, by decide⟩

theorem witness_StepRaisesIllegalCommand :
    (about (.regWrite .cmd 1#32)).script = [.regWrite .cmd 1#32] ∧
      (HostOp.regWrite .cmd 1#32).writesReg .cmd 1#32 ∧ IllegalWord 1#32 := ⟨rfl, .inl rfl, by decide⟩

theorem witness_NopClearsErrAlone : (0x00000100#32).toNat % 256 = 0 ∧ (0x00000100#32) ≠ 0 := by decide

/-- The clauses of SWAPB, CKADD, CKSUM and TXTDEC at the ends of their ranges. -/
theorem witness_range_clauses :
    32768 < (rangeState 0 [] 32765 4 0).a.toNat + (rangeState 0 [] 32765 4 0).l.toNat ∧
      ((rangeState 0 [] 32766 2 0).a.toNat + (rangeState 0 [] 32766 2 0).l.toNat ≤ 32768 ∧
        (rangeState 0 [] 32766 2 0).l.toNat % 4 ≠ 0) ∧
      ((rangeState 0 [] 32764 4 32764).a.toNat + (rangeState 0 [] 32764 4 32764).l.toNat ≤ 32768 ∧
        (rangeState 0 [] 32764 4 32764).l.toNat % 4 = 0 ∧
        (rangeState 0 [] 32764 4 32764).d.toNat + (rangeState 0 [] 32764 4 32764).l.toNat ≤ 32768) ∧
      32768 < (rangeState 0 [] 0 4 32765).d.toNat + (rangeState 0 [] 0 4 32765).l.toNat := by decide

/-- The group clause of SWAPB: the first and the last byte of the last group. -/
theorem witness_SwapbReversesEveryGroup :
    4 * 0 < (rangeState 0 [] 32764 4 0).l.toNat ∧ (0 < 4) ∧ 4 * 8191 < (rangeState 0 [] 0 32768 0).l.toNat ∧ 3 < 4 := by
  decide

/-- The clauses of the record commands at the ends of their ranges. -/
theorem witness_record_clauses :
    32768 < (State.reset.setRb 27569#16).rb.toNat + 5200 ∧ (State.reset.setRb 27568#16).rb.toNat + 5200 ≤ 32768 ∧
      32768 < (State.reset.setD 32761#16).d.toNat + 8 ∧ (State.reset.setD 32760#16).d.toNat + 8 ≤ 32768 ∧
      5200 < (5199#16).toNat + 2 ∧ (5198#16).toNat + 2 ≤ 5200 ∧ 5200 < (5200#16).toNat + 1 ∧
      (5199#16).toNat + 1 ≤ 5200 := by decide

/-- Each range of the character table, at its ends. -/
theorem witness_LutIsTheCharacterTable :
    (0#8).toNat = 0 ∧ 1 ≤ (1#8).toNat ∧ (9#8).toNat ≤ 9 ∧ 10 ≤ (10#8).toNat ∧ (170#8).toNat ≤ 170 ∧
      171 ≤ (171#8).toNat ∧ (196#8).toNat ≤ 196 ∧ 197 ≤ (197#8).toNat ∧ (222#8).toNat ≤ 222 ∧ (223#8).toNat = 223 ∧
      224 ≤ (224#8).toNat ∧ (227#8).toNat ≤ 227 ∧ (228#8).toNat = 228 ∧ 229 ≤ (229#8).toNat ∧
      (233#8).toNat ≤ 233 ∧ (234#8).toNat = 234 ∧ 235 ≤ (255#8).toNat := by decide

theorem witness_LutbLooksUpTheByte :
    lut (BitVec.ofNat 8 ((0x100#32).toNat % 256)) = none ∧
      lut (BitVec.ofNat 8 ((0x1DF#32).toNat % 256)) = some 0x20#8 := by decide

theorem witness_TxtdecDecodesTheRange :
    ((rangeState 0 [0x00, 0xAB] 0 2 8).codes 0 2)[0]? = some 0x41#8 := by decide

theorem witness_TxtnameDecodesTheName : ((nameState 0).codes (0x20 + 0x24) 8)[7]? = some 0x20#8 := by decide

theorem witness_FldReadsTheFixedFields :
    5 < (6#16).toNat ∧ (5#16).toNat ≤ 5 ∧ [0x34, 0x22, 0x2E, 0x30, 0x1352][(4#16).toNat]? = some 0x1352 := by decide

theorem witness_ChecksumIsRolling :
    (rangeState 0 [] 32762 0 0).a.toNat + ((4#16).toNat + (2#16).toNat) ≤ 32768 ∧ (4#16).toNat % 2 = 0 := by decide

theorem witness_DanglingByteIsDropped :
    ((rangeState 0 [] 32767 1 0).a.toNat + (rangeState 0 [] 32767 1 0).l.toNat ≤ 32768 ∧
        (rangeState 0 [] 32767 1 0).l.toNat % 2 = 1) ∧ (rangeState 0 [] 32762 0 0).a.toNat + 6 ≤ 32768 := by decide

/-- A passing record; at every offset some byte differs from the one there. -/
theorem witness_OneChangedByteFlipsThePass :
    ∃ s t : State, s.rb.toNat + 5200 ≤ 32768 ∧ exec .ckver s = .next t ∧ Status.mm t.status = false ∧
      ∀ k, k < 5200 → ∃ b : Byte, b ≠ s.byteAt (s.rb.toNat + k) := by
  refine ⟨_, _, recordInBuf_rupeesRecord _, exec_ckver_rupeesRecord 0x63#8, ?_, fun k _ => ?_⟩
  · show Status.mm (Status.succeed (Status.setVerdict 0 _)) = _
    decide
  · generalize (rupeesRecord [0x00#8, 0x63#8]).byteAt _ = c
    by_cases hc : c = 0#8
    · exact ⟨1#8, by rw [hc]; decide⟩
    · exact ⟨0#8, Ne.symm hc⟩

theorem witness_CkverPassesAfterCkwr :
    ∃ s t s' : State, s.rb.toNat + 5200 ≤ 32768 ∧ exec .ckwr s = .next t ∧ s'.rb = t.rb ∧
      ∀ k, k < 0x1354 → s'.byteAt (s.rb.toNat + k) = t.byteAt (s.rb.toNat + k) := by
  obtain ⟨t, ht, -, -, -⟩ := test_ckwr
  exact ⟨_, t, t, recordInBuf_rupeesRecord [], ht, rfl, fun _ _ => rfl⟩

theorem witness_ChecksumsReadOnlyWhatTheyName :
    ∃ s t s' t' u u' : State, s'.a = s.a ∧ s'.l = s.l ∧ s'.acc = s.acc ∧ s'.rb = s.rb ∧
      s'.w.extractLsb' 0 16 = s.w.extractLsb' 0 16 ∧ s.a.toNat + s.l.toNat ≤ 32768 ∧ s.rb.toNat + 5200 ≤ 32768 ∧
      (∀ k, s'.byteAt k = s.byteAt k) ∧ s' ≠ s ∧ exec .cksum s = .next t ∧ exec .cksum s' = .next t' ∧
      exec .ckaddw s = .next u ∧ exec .ckaddw s' = .next u' :=
  ⟨State.reset, _, State.reset.setD 1, _, _, _, rfl, rfl, rfl, rfl, rfl, by decide, by decide, fun _ => rfl, by decide,
    rfl, rfl, rfl, rfl⟩

theorem witness_TextNeverEmitsNulOrZero :
    after (exec .txtname (nameState 0x7F00)) (fun t => Status.err t.status == 0 && decide (7 < t.r.toNat)) = true := by
  decide

/-- A record whose first bytes are 00 FF, and one whose first bytes are FF FF (V-FMX-1, V-FMX-2). -/
theorem witness_FieldReadsArePure :
    (after (exec (.rd16 0) (State.reset.memWrite 0 [0x00, 0xFF])) (fun t => Status.err t.status == 0) &&
      (State.reset.memWrite 0 [0x00, 0xFF]).byteAt 0 == 0x00#8 &&
      (State.reset.memWrite 0 [0x00, 0xFF]).byteAt 1 == 0xFF#8 &&
      after (exec (.rdbit 0 7) (State.reset.memWrite 0 [0xFF, 0xFF])) (fun t => Status.err t.status == 0) &&
      (State.reset.memWrite 0 [0xFF, 0xFF]).byteAt 0 == 0xFF#8 &&
      (State.reset.memWrite 0 [0xFF, 0xFF]).byteAt 1 == 0xFF#8) = true := by decide

/-- Commands that end in each error, and one that succeeds. -/
theorem witness_commands :
    after (execute 0x44#32 State.reset) (fun t => Status.err t.status == 3#3) = true ∧
      after (execute 0x11#32 (rangeState 0 [] 32767 6 0)) (fun t => Status.err t.status == 2#3) = true ∧
      after (execute 0x11#32 (rangeState 0 [] 0 6 0)) (fun t => Status.err t.status == 1#3) = true ∧
      after (execute 0x10#32 State.reset) (fun t => Status.err t.status == 0) = true := by decide

/-- A step that clears EF, one that clears MMS, one that changes A, and one that changes ERR. -/
theorem witness_steps :
    after (step ((about (.regWrite .status 0x08#32)).setStatus 0x28#32)) (fun t => !Status.ef t.status) = true ∧
      after (step ((about (.windowWrite 0x0004#16 32 0x20#32)).setStatus 0x28#32)) (fun t => !Status.mms t.status) = true ∧
      after (step ((about .reset).setA 7)) (fun t => decide (t.a ≠ 7)) = true ∧
      after (step (about (.regWrite .cmd 0x44#32))) (fun t => decide (Status.err t.status ≠ 0)) = true := by decide

/-- A CKVER that finds a mismatch. -/
theorem witness_StickyFlagsClearOnlyByTheHost :
    ∃ s t : State, exec .ckver s = .next t ∧ Status.err t.status = 0 ∧ t.acc ≠ t.expected := by
  obtain ⟨t, ht, hs, -, ha, he⟩ := test_ckver_mismatch
  exact ⟨_, t, ht, by rw [hs]; decide, by rw [ha, he]; decide⟩

theorem witness_StepKeepsTheInvariant : State.reset.Inv ∧ step State.reset = .next State.reset :=
  ⟨⟨by decide, by decide, by decide⟩, rfl⟩

theorem witness_host_operations :
    (about .reset).script = [.reset] ∧ (about (.regRead .exp)).script = [.regRead .exp] ∧
      (about (.bufWrite 32767 1)).script = [.bufWrite 32767 1] ∧ (32767 < 32768) ∧ (32768 ≤ 32768) ∧
      (∀ b, (5, b) ∉ State.reset.buf) ∧ 0x28 ≤ (0x28#16).toNat ∧ (0x7FFF#16).toNat ≤ 0x7FFF ∧
      (0x7FFF#16).toNat < 0x8000 ∧ 0x8000 ≤ (0x8000#16).toNat :=
  ⟨rfl, rfl, rfl, by decide, by decide, fun _ h => absurd h (by simp [State.reset, State.atPowerOn]), by decide,
    by decide, by decide, by decide⟩

theorem witness_BytesStayUntilWritten :
    after (step ((about (.bufWrite 5 1)).memWrite 5 [0])) (fun t => decide (t.byteAt 5 ≠ 0)) = true := by decide

theorem witness_RefusedAccessesHaveNoStep :
    (about (.bufRead 32768)).script = [.bufRead 32768] ∧
      (about (.windowRead 0x7FFF#16 8)).script = [.windowRead 0x7FFF#16 8] ∧
      (about (.windowWrite 0x8000#16 32 0)).script = [.windowWrite 0x8000#16 32 0] := ⟨rfl, rfl, rfl⟩

end Sys2Proof.Tests
end

section
/-! PROOFS. What the statements of 10_state.md need, said once: what a legal word is, what a command word and a step
can do, and the bits of STATUS each of them keeps. -/
namespace Sys2Proof

/-! ## A word that decodes (30_encoding.md R82, R86) -/

/-- What the decoder has checked when it answers a command. -/
theorem decode_ok_cases {c : Word} {i : Instr} (h : decode c = .ok i) :
    ∃ m, opcodeOf (cmdOpc c) = some m ∧ cmdRsv c = 0 ∧
      (formatUsesBit (opcodeFormat m) = false → cmdBit c = 0) ∧
      (formatUsesImm (opcodeFormat m) = false → cmdImm c = 0) ∧
      (m = .fld → (cmdImm c).toNat ≤ Instr.maxSelector) ∧ i = instrOf m (cmdImm c) (cmdBit c) := by
  unfold decode at h
  split at h
  · cases h
  · next m hm =>
    split_ifs at h with hrsv hbit himm hsel
    cases h
    exact ⟨m, hm, not_not.mp hrsv, fun hf => by_contra fun hb => hbit ⟨hf, hb⟩,
      fun hf => by_contra fun hi => himm ⟨hf, hi⟩, fun hf => not_lt.mp fun hi => hsel ⟨hf, hi⟩, rfl⟩

theorem instrBit_instrOf (m : Opcode) (imm : Half) (bit : BitVec 3) :
    instrBit (instrOf m imm bit) = if formatUsesBit (opcodeFormat m) = false then 0 else bit := by
  cases m <;> rfl

theorem instrImm_instrOf (m : Opcode) (imm : Half) (bit : BitVec 3) :
    instrImm (instrOf m imm bit) = if formatUsesImm (opcodeFormat m) = false then 0 else imm := by
  cases m <;> rfl

/-- The word a command was decoded from is the command's own: no bit of it is dropped (30_encoding.md R82, R88). -/
theorem encode_of_decode {c : Word} {i : Instr} (h : decode c = .ok i) : encode i = c := by
  obtain ⟨m, hm, hrsv, hbit, himm, -, rfl⟩ := decode_ok_cases h
  have hopc : opcodeByte m = cmdOpc c := opcodeByte_of_opcodeOf hm
  have hB : instrBit (instrOf m (cmdImm c) (cmdBit c)) = cmdBit c := by
    rw [instrBit_instrOf, ite_eq_right_iff]
    exact fun hf => (hbit hf).symm
  have hI : instrImm (instrOf m (cmdImm c) (cmdBit c)) = cmdImm c := by
    rw [instrImm_instrOf, ite_eq_right_iff]
    exact fun hf => (himm hf).symm
  calc encode (instrOf m (cmdImm c) (cmdBit c))
      = cmdWord (cmdImm c) (cmdRsv c) (cmdBit c) (cmdOpc c) := by
        rw [encode, hB, hI, instrOpcode_instrOf, hopc, hrsv]
    _ = c := cmdWord_fields c

end Sys2Proof

namespace Sys2Proof.Machine

/-! ## The fields of STATUS under each of its writes -/

theorem errorCode_ne_zero (e : ErrorKind) : errorCode e ≠ 0 := by cases e <;> decide

theorem toNat_errorCode_le (e : ErrorKind) : (errorCode e).toNat ≤ 3 := by cases e <;> decide

@[simp] theorem Status.err_zero : Status.err 0#32 = 0#3 := by decide

@[simp] theorem Status.reserved_zero : Status.reserved 0#32 = 0#26 := by decide

/-- The reserved field is the bits from 6 up. -/
theorem Status.reserved_congr {st st' : Word} (h : ∀ k, 6 ≤ k → st'.getLsbD k = st.getLsbD k) :
    Status.reserved st' = Status.reserved st := by
  ext k hk
  simpa [Status.reserved] using h (6 + k) (by omega)

@[simp] theorem Status.reserved_succeed (st : Word) : Status.reserved (Status.succeed st) = Status.reserved st :=
  Status.reserved_congr fun k hk => by
    have h3 : 3 ≤ k := by omega
    simp [Status.getLsbD_succeed, h3]

@[simp] theorem Status.reserved_fail (st : Word) (e : ErrorKind) :
    Status.reserved (Status.fail st e) = Status.reserved st :=
  Status.reserved_congr fun k hk => Status.getLsbD_fail st e k (by omega)

@[simp] theorem Status.reserved_setVerdict (st : Word) (m : Bool) :
    Status.reserved (Status.setVerdict st m) = Status.reserved st :=
  Status.reserved_congr fun k hk => by
    have h4 : k ≠ 4 := by omega
    have h5 : k ≠ 5 := by omega
    simp [Status.getLsbD_setVerdict, h4, h5]

@[simp] theorem Status.reserved_hostWrite (st v : Word) :
    Status.reserved (Status.hostWrite st v) = Status.reserved st :=
  Status.reserved_congr fun k hk => by
    have h3 : k ≠ 3 := by omega
    have h5 : k ≠ 5 := by omega
    simp [Status.getLsbD_hostWrite, h3, h5]

/-- A host write of STATUS clears bit `k` only where the word written has that bit set (44_host_control.md R197). -/
theorem Status.getLsbD_of_hostWrite_clears {st v : Word} {k : Nat} (h1 : st.getLsbD k = true)
    (h0 : (Status.hostWrite st v).getLsbD k = false) : v.getLsbD k = true := by
  rw [Status.getLsbD_hostWrite, h1] at h0
  simp only [Bool.true_and, Bool.not_eq_false', Bool.and_eq_true] at h0
  exact h0.2

/-! ## A command that succeeded -/

theorem Succeeds.err_eq_zero {i : Instr} {s t : State} (h : Succeeds i s t) : Status.err t.status = 0 := by
  rcases h.status with hst | ⟨-, m, hst⟩ <;> rw [hst, Status.err_succeed]

theorem Succeeds.reserved_eq {i : Instr} {s t : State} (h : Succeeds i s t) :
    Status.reserved t.status = Status.reserved s.status := by
  rcases h.status with hst | ⟨-, m, hst⟩
  · rw [hst, Status.reserved_succeed]
  · rw [hst, Status.reserved_succeed, Status.reserved_setVerdict]

/-- A success of any command but CKVER keeps every bit of STATUS above ERR. -/
theorem Succeeds.getLsbD_status {i : Instr} {s t : State} (h : Succeeds i s t) (hi : i ≠ .ckver) {k : Nat}
    (hk : 3 ≤ k) : t.status.getLsbD k = s.status.getLsbD k := by
  rcases h.status with hst | ⟨hv, -⟩
  · simp [hst, Status.getLsbD_succeed, hk]
  · exact absurd hv hi

/-- A success keeps a 1 in EF and in MMS: CKVER's verdict only sets MMS (10_state.md R34, R36). -/
theorem Succeeds.keeps_sticky {i : Instr} {s t : State} (h : Succeeds i s t) {k : Nat} (hk : k = 3 ∨ k = 5)
    (h1 : s.status.getLsbD k = true) : t.status.getLsbD k = true := by
  rcases h.status with hst | ⟨-, m, hst⟩
  · rcases hk with rfl | rfl <;> simp [hst, Status.getLsbD_succeed, h1]
  · rcases hk with rfl | rfl <;> simp [hst, Status.getLsbD_succeed, Status.getLsbD_setVerdict, h1]

/-! ## What a command word can do (44_host_control.md R195) -/

/-- A command word ends in an error, which writes STATUS alone, or it decodes to a command that succeeded. -/
theorem execute_cases {c : Word} {s t : State} (h : execute c s = .next t) :
    (∃ e, t = s.setStatus (Status.fail s.status e)) ∨ ∃ i, decode c = .ok i ∧ Succeeds i s t := by
  unfold execute at h
  split at h
  · rw [raise_eq] at h
    cases h
    exact .inl ⟨_, rfl⟩
  · next i hi => exact (exec_cases h).imp_right fun hs => ⟨i, hi, hs⟩

theorem execute_sameOperands {c : Word} {s t : State} (h : execute c s = .next t) : SameOperands s t := by
  rcases execute_cases h with ⟨e, rfl⟩ | ⟨i, -, hs⟩
  · exact ⟨rfl, rfl, rfl, rfl, rfl⟩
  · exact hs.operands

theorem execute_sameHost {c : Word} {s t : State} (h : execute c s = .next t) : SameHost s t := by
  rcases execute_cases h with ⟨e, rfl⟩ | ⟨i, -, hs⟩
  · exact ⟨rfl, rfl, rfl⟩
  · exact hs.host

theorem execute_reserved {c : Word} {s t : State} (h : execute c s = .next t) :
    Status.reserved t.status = Status.reserved s.status := by
  rcases execute_cases h with ⟨e, rfl⟩ | ⟨i, -, hs⟩
  · exact Status.reserved_fail s.status e
  · exact hs.reserved_eq

theorem execute_err_le {c : Word} {s t : State} (h : execute c s = .next t) : (Status.err t.status).toNat ≤ 3 := by
  rcases execute_cases h with ⟨e, rfl⟩ | ⟨i, -, hs⟩
  · rw [State.setStatus_status, Status.err_fail]
    exact toNat_errorCode_le e
  · simp [hs.err_eq_zero]

/-- A command word that ends in an error sets EF (10_state.md R34). -/
theorem execute_ef_of_err {c : Word} {s t : State} (h : execute c s = .next t) (he : Status.err t.status ≠ 0) :
    Status.ef t.status = true := by
  rcases execute_cases h with ⟨e, rfl⟩ | ⟨i, -, hs⟩
  · exact Status.ef_fail s.status e
  · exact absurd hs.err_eq_zero he

/-- No command word clears EF or MMS (10_state.md R34, R36). -/
theorem execute_keeps_sticky {c : Word} {s t : State} (h : execute c s = .next t) {k : Nat} (hk : k = 3 ∨ k = 5)
    (h1 : s.status.getLsbD k = true) : t.status.getLsbD k = true := by
  rcases execute_cases h with ⟨e, rfl⟩ | ⟨i, -, hs⟩
  · rcases hk with rfl | rfl
    · exact Status.ef_fail s.status e
    · exact (Status.getLsbD_fail s.status e 5 (by omega)).trans h1
  · exact hs.keeps_sticky hk h1

/-- A command word's BUF: as it was, or with one range inside it written. -/
theorem execute_bufWf {c : Word} {s t : State} (h : execute c s = .next t) (hs : s.buf.wf) : t.buf.wf := by
  rcases execute_cases h with ⟨e, rfl⟩ | ⟨i, -, hi⟩
  · exact hs
  · rcases hi.buf with hb | ⟨a, bs, hin, hb⟩
    · rwa [hb]
    · rw [hb]
      exact Memory.write_wf s.buf a bs hs hin

/-- A command word that is not CKVER's, or that ends in an error, leaves EXP, MM and MMS (10_state.md R29, R35, R36). -/
theorem execute_keeps_verdict {c : Word} {s t : State} (h : execute c s = .next t)
    (hc : c ≠ 0x00000024#32 ∨ Status.err t.status ≠ 0) :
    t.expected = s.expected ∧ Status.mm t.status = Status.mm s.status ∧ Status.mms t.status = Status.mms s.status := by
  rcases execute_cases h with ⟨e, rfl⟩ | ⟨i, hi, hs⟩
  · exact ⟨rfl, Status.getLsbD_fail s.status e 4 (by omega), Status.getLsbD_fail s.status e 5 (by omega)⟩
  · have hne : i ≠ .ckver := by
      rintro rfl
      have hword : c = 0x00000024#32 := (encode_of_decode hi).symm.trans (by decide)
      exact hc.elim (absurd hword) (absurd hs.err_eq_zero)
    exact ⟨hs.expected hne, hs.getLsbD_status hne (by omega), hs.getLsbD_status hne (by omega)⟩

/-! ## What one operation of the host can do (44_host_control.md R190) -/

/-- The host operation writes `b` to `BUF[i]`: by its index, or by its window offset (10_state.md R44). -/
def HostOp.writesBuf (op : HostOp) (i : Nat) (b : Byte) : Prop :=
  op = .bufWrite i b ∨ ∃ offset v, windowTarget offset = .buf i ∧ b = v.extractLsb' 0 8 ∧ op = .windowWrite offset 8 v

/-- Every way an operation of the host that has a step leads from `s` to a next state. -/
inductive HostEffect (op : HostOp) (s : State) : State → Prop where
  /-- A write to CMD executes the command word (R195). -/
  | command {c : Word} {t : State} (hw : op.writesReg .cmd c) (hx : execute c s = .next t) : HostEffect op s t
  /-- A write to STATUS (R197). -/
  | status {v : Word} (hw : op.writesReg .status v) : HostEffect op s (s.setStatus (Status.hostWrite s.status v))
  /-- A write to A (R191). -/
  | a {v : Word} (hw : op.writesReg .a v) : HostEffect op s (s.setA (v.extractLsb' 0 16))
  /-- A write to L (R191). -/
  | l {v : Word} (hw : op.writesReg .l v) : HostEffect op s (s.setL (v.extractLsb' 0 16))
  /-- A write to D (R191). -/
  | d {v : Word} (hw : op.writesReg .d v) : HostEffect op s (s.setD (v.extractLsb' 0 16))
  /-- A write to RB (R191). -/
  | rb {v : Word} (hw : op.writesReg .rb v) : HostEffect op s (s.setRb (v.extractLsb' 0 16))
  /-- A write to W (R191). -/
  | w {v : Word} (hw : op.writesReg .w v) : HostEffect op s (s.setW v)
  /-- A write to one byte of BUF (R193). -/
  | buf {i : Nat} {b : Byte} (hw : op.writesBuf i b) (hi : i < Config.bufBytes) : HostEffect op s (s.memWrite i [b])
  /-- Reset (70_reset_and_hazards.md R240). -/
  | reset (ho : op = .reset) : HostEffect op s (resetState s)
  /-- A write that is ignored (R191). -/
  | ignored : HostEffect op s s
  /-- A read (R192, R194). -/
  | answer (v : Response) : HostEffect op s (s.setResponse v)

theorem regWrite_effect {op : HostOp} {reg : Reg} {v : Word} {s t : State} (hw : op.writesReg reg v)
    (h : regWrite reg v s = .next t) : HostEffect op s t := by
  cases reg with
  | cmd => exact .command hw h
  | status => cases h; exact .status hw
  | a => cases h; exact .a hw
  | l => cases h; exact .l hw
  | d => cases h; exact .d hw
  | rb => cases h; exact .rb hw
  | w => cases h; exact .w hw
  | r | acc | exp => cases h; exact .ignored

theorem bufWrite_effect {op : HostOp} {i : Nat} {b : Byte} {s t : State} (hw : op.writesBuf i b)
    (h : bufWrite i b s = .next t) : HostEffect op s t := by
  unfold bufWrite at h
  split_ifs at h with hi
  cases h
  exact .buf hw hi

theorem regRead_effect {op : HostOp} {reg : Reg} {s t : State} (h : regRead reg s = .next t) : HostEffect op s t := by
  cases h
  exact .answer _

theorem bufRead_effect {op : HostOp} {i : Nat} {s t : State} (h : bufRead i s = .next t) : HostEffect op s t := by
  unfold bufRead at h
  split_ifs at h
  cases h
  exact .answer _

theorem windowWrite_effect {offset : BitVec 16} {width : Nat} {v : Word} {s t : State}
    (h : windowWrite offset width v s = .next t) : HostEffect (.windowWrite offset width v) s t := by
  unfold windowWrite at h
  split at h
  · next i htarget =>
    split_ifs at h with h8
    exact bufWrite_effect (.inr ⟨offset, v, htarget, rfl, by rw [h8]⟩) h
  · next reg htarget =>
    split_ifs at h with h32
    exact regWrite_effect (.inr ⟨offset, htarget, by rw [h32]⟩) h
  · split_ifs at h
    cases h
    exact .ignored
  · split_ifs at h

theorem windowRead_effect {op : HostOp} {offset : BitVec 16} {width : Nat} {s t : State}
    (h : windowRead offset width s = .next t) : HostEffect op s t := by
  unfold windowRead at h
  split at h
  · split_ifs at h
    exact bufRead_effect h
  · split_ifs at h
    exact regRead_effect h
  · split_ifs at h
    cases h
    exact .answer _
  · split_ifs at h

/-- Every operation of the host that has a step. -/
theorem performOp_effect {op : HostOp} {s t : State} (h : performOp op s = .next t) : HostEffect op s t := by
  cases op with
  | regWrite reg v => exact regWrite_effect (.inl rfl) h
  | regRead reg => exact regRead_effect h
  | bufWrite i b => exact bufWrite_effect (.inl rfl) h
  | bufRead i => exact bufRead_effect h
  | reset => cases h; exact .reset rfl
  | windowWrite offset width v => exact windowWrite_effect h
  | windowRead offset width => exact windowRead_effect h

/-- What a step can do: nothing where the host performs nothing, and otherwise its next operation. -/
theorem step_cases {s t : State} (h : step s = .next t) :
    (s.script = [] ∧ t = s) ∨ ∃ op rest, s.script = op :: rest ∧ HostEffect op (s.begin rest) t := by
  unfold step performNext at h
  split at h
  · next hs =>
    cases h
    exact .inl ⟨hs, rfl⟩
  · next op rest hs => exact .inr ⟨op, rest, hs, performOp_effect h⟩

/-- A step that changes something has the host's next operation as its cause. -/
theorem step_cause {s t : State} {P : HostOp → Prop} (h : step s = .next t) (hne : t ≠ s)
    (hP : ∀ op rest, HostEffect op (s.begin rest) t → P op) : ∃ op rest, s.script = op :: rest ∧ P op := by
  rcases step_cases h with ⟨-, he⟩ | ⟨op, rest, hs, he⟩
  · exact absurd he hne
  · exact ⟨op, rest, hs, hP op rest he⟩

end Sys2Proof.Machine
end

section
/-! PROOFS. The statements of 10_state.md. -/
namespace Sys2Proof.Machine

/-! ## The invariant (10_state.md R32, R37, R39) -/

theorem execute_inv {c : Word} {s t : State} (hs : s.Inv) (h : execute c s = .next t) : t.Inv :=
  ⟨execute_bufWf h hs.bufWf, (execute_reserved h).trans hs.reservedZero, execute_err_le h⟩

theorem begin_inv {s : State} (hs : s.Inv) (rest : List HostOp) : (s.begin rest).Inv :=
  ⟨hs.bufWf, hs.reservedZero, hs.errLegal⟩

/-- Every operation of the host keeps the invariant. -/
theorem HostEffect.inv {op : HostOp} {s t : State} (h : HostEffect op s t) (hs : s.Inv) : t.Inv := by
  cases h with
  | command _ hx => exact execute_inv hs hx
  | status _ =>
    exact ⟨hs.bufWf, (Status.reserved_hostWrite _ _).trans hs.reservedZero,
      (congrArg BitVec.toNat (Status.err_hostWrite _ _)).trans_le hs.errLegal⟩
  | buf _ hi => exact ⟨Memory.write_wf s.buf _ _ hs.bufWf hi, hs.reservedZero, hs.errLegal⟩
  | reset _ => exact ⟨hs.bufWf, by simp, by simp⟩
  | a _ | l _ | d _ | rb _ | w _ | ignored | answer _ => exact ⟨hs.bufWf, hs.reservedZero, hs.errLegal⟩

/-- Settles O41: a step is idle or one operation of the host, and each kind of operation keeps the invariant. -/
theorem stepKeepsTheInvariant : Obligations.StepKeepsTheInvariant := by
  intro s t hs h
  rcases step_cases h with ⟨-, rfl⟩ | ⟨op, rest, -, he⟩
  · exact hs
  · exact he.inv (begin_inv hs rest)

theorem atPowerOn_inv (n : Nat) : (State.atPowerOn n).Inv :=
  ⟨Memory.reset_wf, Status.reserved_zero, by simp [State.atPowerOn]⟩

/-- Settles O42: no byte of BUF is written and STATUS is 0. -/
theorem powerOnMeetsTheInvariant : Obligations.PowerOnMeetsTheInvariant :=
  ⟨atPowerOn_inv 0, atPowerOn_inv⟩

/-! ## The verdict and the sticky flags (10_state.md R29, R34-R37) -/

/-- Settles O37, from what a command word can do. -/
theorem onlyCkverWritesTheVerdict : Obligations.OnlyCkverWritesTheVerdict :=
  fun _ _ _ h => ⟨execute_sameHost h, execute_reserved h, execute_keeps_verdict h⟩

/-- A CKVER that succeeds with a mismatch sets MMS (41_checksum.md R127, 10_state.md R36). -/
theorem exec_ckver_mismatch_sets_mms {s t : State} (h : exec .ckver s = .next t) (herr : Status.err t.status = 0)
    (hne : t.acc ≠ t.expected) : Status.mms t.status = true := by
  have h' : execCkver s = .next t := h
  by_cases hr : s.recordInBuf
  · obtain ⟨u, hu, hacc, hexp, -, -, hmms, -⟩ := verifyDone_next s.recordSum s.recordStored s
    rw [execCkver_verifies hr, hu] at h'
    cases h'
    exact hmms.mpr (.inl (by rwa [hacc, hexp] at hne))
  · rw [execCkver_outOfRange hr, raise_eq] at h'
    cases h'
    exact absurd ((Status.err_fail _ _).symm.trans herr) (errorCode_ne_zero _)

/-- A sticky flag, EF in bit 3 or MMS in bit 5, is cleared by Reset or by a write to STATUS with its bit set. -/
theorem HostEffect.sticky_cleared {op : HostOp} {s t : State} (h : HostEffect op s t) {k : Nat}
    (hk : k = 3 ∨ k = 5) (h1 : s.status.getLsbD k = true) (h0 : t.status.getLsbD k = false) :
    op = .reset ∨ ∃ v, op.writesReg .status v ∧ v.getLsbD k = true := by
  cases h with
  | command _ hx => exact absurd ((execute_keeps_sticky hx hk h1).symm.trans h0) (by decide)
  | status hw => exact .inr ⟨_, hw, Status.getLsbD_of_hostWrite_clears h1 h0⟩
  | reset ho => exact .inl ho
  | a _ | l _ | d _ | rb _ | w _ | buf _ _ | ignored | answer _ => exact absurd (h1.symm.trans h0) (by decide)

theorem step_sticky_cleared {s t : State} (h : step s = .next t) {k : Nat} (hk : k = 3 ∨ k = 5)
    (h1 : s.status.getLsbD k = true) (h0 : t.status.getLsbD k = false) :
    ∃ op rest, s.script = op :: rest ∧ (op = .reset ∨ ∃ v, op.writesReg .status v ∧ v.getLsbD k = true) := by
  refine step_cause h ?_ fun _ _ he => he.sticky_cleared hk h1 h0
  rintro rfl
  exact absurd (h1.symm.trans h0) (by decide)

/-- Settles O38: EF and MMS are the sticky bits 3 and 5. -/
theorem stickyFlagsClearOnlyByTheHost : Obligations.StickyFlagsClearOnlyByTheHost :=
  ⟨fun _ _ _ => execute_ef_of_err, fun _ _ => exec_ckver_mismatch_sets_mms,
    fun _ _ h => ⟨step_sticky_cleared h (.inl rfl), step_sticky_cleared h (.inr rfl)⟩⟩

/-! ## The operand registers and ERR (10_state.md R22-R26, R33) -/

/-- `op` is Reset or a write to the register `reg`. -/
def HostOp.mayWrite (op : HostOp) (reg : Reg) : Prop := op = .reset ∨ ∃ v, op.writesReg reg v

/-- Each operand register that changes from `s` to `t` is one that `op` writes. -/
structure OperandsWrittenBy (op : HostOp) (s t : State) : Prop where
  a : t.a ≠ s.a → op.mayWrite .a
  l : t.l ≠ s.l → op.mayWrite .l
  d : t.d ≠ s.d → op.mayWrite .d
  rb : t.rb ≠ s.rb → op.mayWrite .rb
  w : t.w ≠ s.w → op.mayWrite .w

theorem SameOperands.writtenBy {s t : State} (h : SameOperands s t) (op : HostOp) : OperandsWrittenBy op s t :=
  ⟨absurd h.a, absurd h.l, absurd h.d, absurd h.rb, absurd h.w⟩

theorem HostEffect.operandsWrittenBy {op : HostOp} {s t : State} (h : HostEffect op s t) :
    OperandsWrittenBy op s t := by
  cases h with
  | command _ hx => exact (execute_sameOperands hx).writtenBy op
  | a hw => exact { SameOperands.writtenBy (.refl s) op with a := fun _ => .inr ⟨_, hw⟩ }
  | l hw => exact { SameOperands.writtenBy (.refl s) op with l := fun _ => .inr ⟨_, hw⟩ }
  | d hw => exact { SameOperands.writtenBy (.refl s) op with d := fun _ => .inr ⟨_, hw⟩ }
  | rb hw => exact { SameOperands.writtenBy (.refl s) op with rb := fun _ => .inr ⟨_, hw⟩ }
  | w hw => exact { SameOperands.writtenBy (.refl s) op with w := fun _ => .inr ⟨_, hw⟩ }
  | reset ho => exact ⟨fun _ => .inl ho, fun _ => .inl ho, fun _ => .inl ho, fun _ => .inl ho, fun _ => .inl ho⟩
  | status _ | buf _ _ | ignored | answer _ =>
    exact ⟨absurd rfl, absurd rfl, absurd rfl, absurd rfl, absurd rfl⟩

/-- Settles O39, one register at a time. -/
theorem onlyTheHostWritesTheOperands : Obligations.OnlyTheHostWritesTheOperands := fun _ _ h =>
  ⟨fun hne => step_cause h (ne_of_apply_ne State.a hne) fun _ _ he => he.operandsWrittenBy.a hne,
    fun hne => step_cause h (ne_of_apply_ne State.l hne) fun _ _ he => he.operandsWrittenBy.l hne,
    fun hne => step_cause h (ne_of_apply_ne State.d hne) fun _ _ he => he.operandsWrittenBy.d hne,
    fun hne => step_cause h (ne_of_apply_ne State.rb hne) fun _ _ he => he.operandsWrittenBy.rb hne,
    fun hne => step_cause h (ne_of_apply_ne State.w hne) fun _ _ he => he.operandsWrittenBy.w hne⟩

/-- ERR is written by commands and by Reset: a host write of STATUS ignores its bits (44_host_control.md R191). -/
theorem HostEffect.err_changed {op : HostOp} {s t : State} (h : HostEffect op s t)
    (hne : Status.err t.status ≠ Status.err s.status) : op.mayWrite .cmd := by
  cases h with
  | command hw _ => exact .inr ⟨_, hw⟩
  | reset ho => exact .inl ho
  | status _ => exact absurd (Status.err_hostWrite _ _) hne
  | a _ | l _ | d _ | rb _ | w _ | buf _ _ | ignored | answer _ => exact absurd rfl hne

/-- Settles O40. -/
theorem onlyCommandsWriteErr : Obligations.OnlyCommandsWriteErr := fun _ _ h hne =>
  step_cause h (ne_of_apply_ne (fun u : State => Status.err u.status) hne) fun _ _ he => he.err_changed hne

/-! ## The host window (10_state.md R44) -/

/-- Each register with its offset in the host window. -/
def registerMap : List (Reg × BitVec 16) :=
  [(.cmd, 0x0000#16), (.status, 0x0004#16), (.a, 0x0008#16), (.l, 0x000C#16), (.d, 0x0010#16), (.rb, 0x0014#16),
    (.w, 0x0018#16), (.r, 0x001C#16), (.acc, 0x0020#16), (.exp, 0x0024#16)]

/-- The model's window decodes each register's offset to that register. -/
theorem windowTarget_registerMap : ∀ p ∈ registerMap, windowTarget p.2 = .reg p.1 := by decide

/-- An offset with bit 15 set is an index of BUF. -/
theorem windowTarget_buf {i : Nat} (hi : i < 32768) : windowTarget (BitVec.ofNat 16 (0x8000 + i)) = .buf i := by
  have hn : (BitVec.ofNat 16 (0x8000 + i)).toNat = 0x8000 + i := by
    rw [BitVec.toNat_ofNat, Nat.mod_eq_of_lt (by omega)]
  simp [windowTarget, hn]

/-- A 32-bit access at a register's offset is the access by name. -/
theorem performOp_window_reg {offset : BitVec 16} {reg : Reg} (h : windowTarget offset = .reg reg) (v : Word)
    (s : State) :
    performOp (.windowWrite offset 32 v) s = performOp (.regWrite reg v) s ∧
      performOp (.windowRead offset 32) s = performOp (.regRead reg) s := by
  simp [performOp, windowWrite, windowRead, h]

/-- An 8-bit access at an offset of BUF is the access by index. -/
theorem performOp_window_buf {offset : BitVec 16} {i : Nat} (h : windowTarget offset = .buf i) (v : Word)
    (s : State) :
    performOp (.windowWrite offset 8 v) s = performOp (.bufWrite i (v.extractLsb' 0 8)) s ∧
      performOp (.windowRead offset 8) s = performOp (.bufRead i) s := by
  simp [performOp, windowWrite, windowRead, h]

/-- Settles O50: the ten offsets of the register map, and the offsets of BUF. -/
theorem windowIsTheRegisterMap : Obligations.WindowIsTheRegisterMap := by
  refine ⟨fun s v reg offset hmem => ?_, fun s v i hi => ?_⟩
  · exact performOp_window_reg (windowTarget_registerMap (reg, offset) hmem) v s
  · have hbyte : BitVec.ofNat 8 v.toNat = v.extractLsb' 0 8 := by simp [BitVec.extractLsb']
    rw [hbyte]
    exact performOp_window_buf (windowTarget_buf hi) v s

end Sys2Proof.Machine
end

section
/-! PROOFS. The statement of 20_memory.md: swaps of adjacent ranges add up to the swap of their union (R65). -/
namespace Sys2Proof.Machine

/-! ## The swap of one range (40_byteswap.md R104) -/

/-- The state in which SWAPB ends, started from `s` with A and L set to `a` and `n`. -/
def State.swapRange (s : State) (a n : Half) : State :=
  (((s.memWrite a.toNat (swapseq (s.memRead a.toNat n.toNat))).setA a).setL n).setStatus (Status.succeed s.status)

/-- SWAPB swaps a range of whole groups inside BUF. -/
theorem exec_swapb_setRange (s : State) {a n : Half} (hbuf : InBuf a.toNat n.toNat) (hn : n.toNat % 4 = 0) :
    exec .swapb ((s.setA a).setL n) = .next (s.swapRange a n) :=
  execSwapb_swaps hbuf hn

/-- SWAPB keeps A and L, so that a second one swaps the same range. -/
theorem exec_swapb_swapRange (s : State) {a n : Half} (hbuf : InBuf a.toNat n.toNat) (hn : n.toNat % 4 = 0) :
    exec .swapb (s.swapRange a n) = .next ((s.swapRange a n).swapRange a n) :=
  execSwapb_swaps hbuf hn

theorem State.memRead_swapRange_same (s : State) (a n : Half) :
    (s.swapRange a n).memRead a.toNat n.toNat = swapseq (s.memRead a.toNat n.toNat) := by
  have h := State.memRead_memWrite_same s a.toNat (swapseq (s.memRead a.toNat n.toNat))
  rwa [length_swapseq, State.length_memRead] at h

theorem State.byteAt_swapRange_outside (s : State) (a n : Half) (i : Nat)
    (hi : i < a.toNat ∨ a.toNat + n.toNat ≤ i) : (s.swapRange a n).byteAt i = s.byteAt i :=
  State.byteAt_memWrite_outside s a.toNat (swapseq (s.memRead a.toNat n.toNat)) i (by simpa using hi)

/-! ## The swap of the bytes below an index -/

/-- BUF in `t` is BUF in `s` with the bytes below `n` swapped. -/
structure SwappedBelow (n : Nat) (s t : State) : Prop where
  below : t.memRead 0 n = swapseq (s.memRead 0 n)
  above : ∀ i, n ≤ i → t.byteAt i = s.byteAt i

theorem SwappedBelow.zero (s : State) : SwappedBelow 0 s s := ⟨rfl, fun _ _ => rfl⟩

/-- A swap is undone by the same swap (40_byteswap.md R105). -/
theorem SwappedBelow.symm {n : Nat} {s t : State} (h : SwappedBelow n s t) : SwappedBelow n t s :=
  ⟨by rw [h.below, swapseq_swapseq], fun i hi => (h.above i hi).symm⟩

/-- Two states that read the same range hold the same bytes there. -/
theorem State.byteAt_eq_of_memRead_eq {s t : State} {n i : Nat} (h : t.memRead 0 n = s.memRead 0 n) (hi : i < n) :
    t.byteAt i = s.byteAt i := by
  have hget : (t.memRead 0 n)[i]? = (s.memRead 0 n)[i]? := by rw [h]
  simpa [State.memRead, hi] using hget

theorem SwappedBelow.sameBytes {n : Nat} {s t u : State} (ht : SwappedBelow n s t) (hu : SwappedBelow n s u) :
    SameBytes t u := fun i => by
  by_cases hi : i < n
  · exact State.byteAt_eq_of_memRead_eq (hu.below.trans ht.below.symm) hi
  · exact (hu.above i (by omega)).trans (ht.above i (by omega)).symm

/-- Where whole groups are swapped below `a`, the swap of the range at `a` continues them (20_memory.md R65). -/
theorem SwappedBelow.swapRange {a : Half} {s t : State} (h : SwappedBelow a.toNat s t) (ha : a.toNat % 4 = 0)
    (n : Half) : SwappedBelow (a.toNat + n.toNat) s (t.swapRange a n) := by
  have hlow : (t.swapRange a n).memRead 0 a.toNat = t.memRead 0 a.toNat :=
    State.memRead_congr t _ 0 _ fun k hk => State.byteAt_swapRange_outside t a n (0 + k) (by omega)
  have hhigh : t.memRead a.toNat n.toNat = s.memRead a.toNat n.toNat :=
    State.memRead_congr s t _ _ fun k _ => h.above (a.toNat + k) (by omega)
  constructor
  · calc (t.swapRange a n).memRead 0 (a.toNat + n.toNat)
        = t.memRead 0 a.toNat ++ swapseq (t.memRead a.toNat n.toNat) := by
          rw [State.memRead_append, Nat.zero_add, hlow, State.memRead_swapRange_same]
      _ = swapseq (s.memRead 0 a.toNat) ++ swapseq (s.memRead a.toNat n.toNat) := by rw [h.below, hhigh]
      _ = swapseq (s.memRead 0 (a.toNat + n.toNat)) := by
          rw [State.memRead_append, swapseq_append _ _ (by simpa using ha), Nat.zero_add]
  · intro i hi
    exact (State.byteAt_swapRange_outside t a n i (.inr hi)).trans (h.above i (by omega))

theorem swappedBelow_swapRange_zero (s : State) (n : Half) : SwappedBelow n.toNat s (s.swapRange 0#16 n) := by
  simpa using SwappedBelow.swapRange (a := 0#16) (.zero s) rfl n

/-! ## The chunks (20_memory.md R64) -/

/-- What A holds for the swap of chunk `k`. -/
def chunkA (k : Nat) : Half := BitVec.ofNat 16 (chunkStart k)

/-- What L holds for the swap of chunk `k`. -/
def chunkL (k : Nat) : Half := BitVec.ofNat 16 (chunkLength k)

/-- The chunks lie one after another inside BUF, and each is a number of whole groups. -/
theorem chunk_layout : ∀ k < 8, (chunkA k).toNat % 4 = 0 ∧ (chunkL k).toNat % 4 = 0 ∧
    (chunkA k).toNat + (chunkL k).toNat = (chunkA (k + 1)).toNat ∧ InBuf (chunkA k).toNat (chunkL k).toNat := by
  decide

/-- The state after the swaps of the first chunks, one after another. -/
def State.swapChunks (s : State) : Nat → State
  | 0 => s
  | k + 1 => (s.swapChunks k).swapRange (chunkA k) (chunkL k)

theorem swappedBelow_swapChunks (s : State) (k : Nat) (hk : k ≤ 8) :
    SwappedBelow (chunkA k).toNat s (s.swapChunks k) := by
  induction k with
  | zero => exact .zero s
  | succ k ih =>
    obtain ⟨hgroup, -, hnext, -⟩ := chunk_layout k hk
    rw [← hnext]
    exact (ih (by omega)).swapRange hgroup (chunkL k)

theorem exec_swapb_chunk (s : State) {k : Nat} (hk : k < 8) :
    exec .swapb (((s.swapChunks k).setA (chunkA k)).setL (chunkL k)) = .next (s.swapChunks (k + 1)) := by
  obtain ⟨-, hgroups, -, hbuf⟩ := chunk_layout k hk
  exact exec_swapb_setRange (s.swapChunks k) hbuf hgroups

/-- Settles O25: after the chunk swaps and after the whole swap the bytes below 32768 are swapped, once; and the whole
swap leads from `u` back to `s` as it led from `s` to `u`. -/
theorem chunkSwapsEqualTheWholeSwap : Obligations.ChunkSwapsEqualTheWholeSwap := by
  intro s
  let u := s.swapRange 0#16 32768#16
  have hbuf : InBuf (0#16).toNat (32768#16).toNat := by decide
  have hgroups : (32768#16).toNat % 4 = 0 := by decide
  have hend : chunkA 8 = 32768#16 := by decide
  have hchunks : SwappedBelow (32768#16).toNat s (s.swapChunks 8) := hend ▸ swappedBelow_swapChunks s 8 le_rfl
  have hwhole : SwappedBelow (32768#16).toNat s u := swappedBelow_swapRange_zero s _
  have hagain : SwappedBelow (32768#16).toNat u (u.swapRange 0#16 32768#16) := swappedBelow_swapRange_zero u _
  exact ⟨s.swapChunks, u, _, rfl, fun _ hk => exec_swapb_chunk s hk, exec_swapb_setRange s hbuf hgroups,
    hwhole.sameBytes hchunks, exec_swapb_swapRange s hbuf hgroups, hwhole.symm.sameBytes hagain⟩

end Sys2Proof.Machine
end

section
/-! PROOFS. The statements of 30_encoding.md: decoding and encoding are inverse to each other, and the decoder rejects
exactly the illegal words (R82, R86, R88). -/
namespace Sys2Proof

/-! ## The checks of the decoder (R86, R88) -/

/-- The fields of a word are legal for the mnemonic its OPC names: conditions 2 to 5 of R86 all fail. -/
structure LegalFields (m : Opcode) (c : Word) : Prop where
  rsv : cmdRsv c = 0
  bit : formatUsesBit (opcodeFormat m) = false → cmdBit c = 0
  imm : formatUsesImm (opcodeFormat m) = false → cmdImm c = 0
  sel : m = .fld → (cmdImm c).toNat ≤ Instr.maxSelector

theorem decode_of_legalFields {c : Word} {m : Opcode} (hm : opcodeOf (cmdOpc c) = some m) (h : LegalFields m c) :
    decode c = .ok (instrOf m (cmdImm c) (cmdBit c)) := by
  have hbit : ¬ (formatUsesBit (opcodeFormat m) = false ∧ cmdBit c ≠ 0) := fun hb => hb.2 (h.bit hb.1)
  have himm : ¬ (formatUsesImm (opcodeFormat m) = false ∧ cmdImm c ≠ 0) := fun hi => hi.2 (h.imm hi.1)
  have hsel : ¬ (m = .fld ∧ Instr.maxSelector < (cmdImm c).toNat) := fun hs => hs.2.not_ge (h.sel hs.1)
  simp only [decode, hm]
  rw [if_neg (not_not.mpr h.rsv), if_neg hbit, if_neg himm, if_neg hsel]

theorem exists_decode_ok_iff (c : Word) :
    (∃ i, decode c = .ok i) ↔ ∃ m, opcodeOf (cmdOpc c) = some m ∧ LegalFields m c := by
  constructor
  · rintro ⟨i, h⟩
    obtain ⟨m, hm, hrsv, hbit, himm, hsel, -⟩ := decode_ok_cases h
    exact ⟨m, hm, hrsv, hbit, himm, hsel⟩
  · rintro ⟨m, hm, h⟩
    exact ⟨_, decode_of_legalFields hm h⟩

/-- Decoding is total: a word is rejected or it is a command's (R88). -/
theorem exists_decode_error_iff (c : Word) : (∃ e, decode c = .error e) ↔ ¬ ∃ i, decode c = .ok i := by
  cases decode c <;> simp

/-! ## The fields of a command's word (R82) -/

theorem instrBit_eq_zero {i : Instr} (h : formatUsesBit (opcodeFormat (instrOpcode i)) = false) : instrBit i = 0 := by
  have hi := instrBit_instrOf (instrOpcode i) (instrImm i) (instrBit i)
  rwa [instrOf_fields, if_pos h] at hi

theorem instrImm_eq_zero {i : Instr} (h : formatUsesImm (opcodeFormat (instrOpcode i)) = false) : instrImm i = 0 := by
  have hi := instrImm_instrOf (instrOpcode i) (instrImm i) (instrBit i)
  rwa [instrOf_fields, if_pos h] at hi

/-- FLD's selector is the one check on a command's operands (R82, R86 condition 5). -/
theorem wellFormed_iff (i : Instr) :
    i.wellFormed = true ↔ (instrOpcode i = .fld → (instrImm i).toNat ≤ Instr.maxSelector) := by
  cases i <;> simp [Instr.wellFormed, instrOpcode, instrImm]

theorem legalFields_encode {i : Instr} (h : i.wellFormed = true) : LegalFields (instrOpcode i) (encode i) where
  rsv := by simp [encode]
  bit hf := by simp [encode, instrBit_eq_zero hf]
  imm hf := by simp [encode, instrImm_eq_zero hf]
  sel hf := by simpa [encode] using (wellFormed_iff i).mp h hf

theorem decode_of_encode {i : Instr} (h : i.wellFormed = true) : decode (encode i) = .ok i := by
  have hm : opcodeOf (cmdOpc (encode i)) = some (instrOpcode i) := by simp [encode]
  have hi : instrOf (instrOpcode i) (cmdImm (encode i)) (cmdBit (encode i)) = i := by simp [encode]
  rw [decode_of_legalFields hm (legalFields_encode h), hi]

theorem wellFormed_of_decode {c : Word} {i : Instr} (h : decode c = .ok i) : i.wellFormed = true := by
  obtain ⟨m, -, -, -, -, hsel, rfl⟩ := decode_ok_cases h
  rw [wellFormed_iff, instrOpcode_instrOf]
  rintro rfl
  exact hsel rfl

/-- Settles O2: the encoder's word passes every check of the decoder, and its fields are the command's. -/
theorem decodeOfEncodeIsTheCommand : Obligations.DecodeOfEncodeIsTheCommand :=
  fun _ h => decode_of_encode h

/-- Settles O3: an unused field of a word that decodes is 0, as the encoder writes it. -/
theorem encodeOfDecodeIsTheWord : Obligations.EncodeOfDecodeIsTheWord :=
  fun _ _ h => ⟨wellFormed_of_decode h, encode_of_decode h⟩

/-- Settles O1: the decoder is evaluated on each word. -/
theorem decodesTheWordsOfTheOpcodeMap : Obligations.DecodesTheWordsOfTheOpcodeMap := by
  unfold Obligations.DecodesTheWordsOfTheOpcodeMap
  decide

end Sys2Proof

namespace Sys2Proof.Machine

/-! ## The opcode map by number (R85) -/

theorem exists_opcodeOf_eq_some_iff (opc : Byte) : (∃ m, opcodeOf opc = some m) ↔ opc.toNat ∈ assignedOpcodes := by
  constructor
  · rintro ⟨m, hm⟩
    rw [← opcodeByte_of_opcodeOf hm]
    cases m <;> decide
  · intro h
    have hmap : ∀ n ∈ assignedOpcodes, (opcodeOf (BitVec.ofNat 8 n)).isSome = true := by decide
    simpa [Option.isSome_iff_exists] using hmap _ h

theorem formatUsesBit_eq_false_iff (m : Opcode) :
    formatUsesBit (opcodeFormat m) = false ↔ (opcodeByte m).toNat ≠ 0x42 := by cases m <;> decide

theorem formatUsesImm_eq_false_iff (m : Opcode) :
    formatUsesImm (opcodeFormat m) = false ↔ (opcodeByte m).toNat ∉ [0x40, 0x41, 0x42, 0x43] := by cases m <;> decide

theorem eq_fld_iff (m : Opcode) : m = .fld ↔ (opcodeByte m).toNat = 0x43 := by cases m <;> decide

/-! ## The illegal words (R86) -/

/-- R86's conditions, all of them failing, over the fields instead of the number. -/
theorem not_illegalWord_iff (c : Word) :
    ¬ IllegalWord c ↔ (cmdOpc c).toNat ∈ assignedOpcodes ∧ cmdRsv c = 0 ∧
      ((cmdOpc c).toNat ≠ 0x42 → cmdBit c = 0) ∧
      ((cmdOpc c).toNat ∉ [0x40, 0x41, 0x42, 0x43] → cmdImm c = 0) ∧
      ((cmdOpc c).toNat = 0x43 → (cmdImm c).toNat ≤ Instr.maxSelector) := by
  simp only [IllegalWord, ← toNat_cmdOpc, ← toNat_cmdRsv, ← toNat_cmdBit, ← toNat_cmdImm, ne_eq,
    not_or, not_and, not_not, not_lt, ← BitVec.toNat_inj, BitVec.ofNat_eq_ofNat, BitVec.toNat_ofNat, Nat.zero_mod]

/-- A word is legal where the decoder's checks hold. -/
theorem not_illegalWord_iff_legalFields (c : Word) :
    ¬ IllegalWord c ↔ ∃ m, opcodeOf (cmdOpc c) = some m ∧ LegalFields m c := by
  rw [not_illegalWord_iff]
  constructor
  · rintro ⟨hopc, hrsv, hbit, himm, hsel⟩
    obtain ⟨m, hm⟩ := (exists_opcodeOf_eq_some_iff _).mpr hopc
    rw [← opcodeByte_of_opcodeOf hm] at hbit himm hsel
    exact ⟨m, hm, hrsv, fun hf => hbit ((formatUsesBit_eq_false_iff m).mp hf),
      fun hf => himm ((formatUsesImm_eq_false_iff m).mp hf), fun hf => hsel ((eq_fld_iff m).mp hf)⟩
  · rintro ⟨m, hm, h⟩
    refine ⟨(exists_opcodeOf_eq_some_iff _).mp ⟨m, hm⟩, h.rsv, ?_⟩
    rw [← opcodeByte_of_opcodeOf hm]
    exact ⟨fun hf => h.bit ((formatUsesBit_eq_false_iff m).mpr hf),
      fun hf => h.imm ((formatUsesImm_eq_false_iff m).mpr hf), fun hf => h.sel ((eq_fld_iff m).mpr hf)⟩

theorem decode_error_iff_illegalWord (c : Word) : (∃ e, decode c = .error e) ↔ IllegalWord c := by
  rw [exists_decode_error_iff, exists_decode_ok_iff, ← not_illegalWord_iff_legalFields, not_not]

theorem execute_illegalWord {c : Word} (h : IllegalWord c) (s : State) :
    ∃ t, execute c s = .next t ∧ ErrorOnly 3#3 s t := by
  obtain ⟨e, he⟩ := (decode_error_iff_illegalWord c).mpr h
  simp only [execute, he]
  exact raise_errorOnly .illegalCommand s

/-- Settles O4: R86's conditions are the decoder's checks, and a rejected word raises IllegalCommand. -/
theorem illegalWordsRaiseIllegalCommand : Obligations.IllegalWordsRaiseIllegalCommand :=
  ⟨decode_error_iff_illegalWord, fun _ s h => execute_illegalWord h s⟩

end Sys2Proof.Machine
end

section
/-! PROOFS. The statements of 40_byteswap.md: what SWAPW and SWAPB do (R103, R104), and that each undoes itself
(R105). -/
namespace Sys2Proof.Machine

/-! ## SWAPW (R103) -/

/-- The swapped word as a number: its bytes in the reverse order. -/
theorem toNat_bswap32 (v : Word) :
    (bswap32 v).toNat = v.toNat % 256 * 2 ^ 24 + v.toNat / 2 ^ 8 % 256 * 2 ^ 16 + v.toNat / 2 ^ 16 % 256 * 2 ^ 8
      + v.toNat / 2 ^ 24 := by
  have hv := v.isLt
  unfold bswap32
  rw [BitVec.toNat_append, BitVec.toNat_append, BitVec.toNat_append,
    ← Nat.shiftLeft_add_eq_or_of_lt (BitVec.isLt _), ← Nat.shiftLeft_add_eq_or_of_lt (BitVec.isLt _),
    ← Nat.shiftLeft_add_eq_or_of_lt (BitVec.isLt _)]
  simp only [BitVec.extractLsb'_toNat, Nat.shiftLeft_eq, Nat.shiftRight_eq_div_pow]
  omega

theorem exec_swapw_resultOnly (s : State) : ∃ t, exec .swapw s = .next t ∧ ResultOnly (bswap32 s.w) s t :=
  done_setR (bswap32 s.w) s

/-- Settles O8: SWAPW answers through R and ERR alone, and R is the swapped word. -/
theorem swapwReversesTheWord : Obligations.SwapwReversesTheWord := by
  refine ⟨by decide, fun s => ?_⟩
  obtain ⟨t, ht, hr, hstatus, hframe⟩ := exec_swapw_resultOnly s
  exact ⟨t, ht, hr ▸ toNat_bswap32 s.w, hstatus, hframe⟩

/-! ## SWAPB (R104) -/

/-- SWAPB swaps the range its own A and L name. -/
theorem exec_swapb_swaps {s : State} (hbuf : s.rangeInBuf) (hn : s.l.toNat % 4 = 0) :
    exec .swapb s = .next (s.swapRange s.a s.l) :=
  exec_swapb_setRange s hbuf hn

theorem exec_swapb_outOfRange {s : State} (hbuf : ¬ s.rangeInBuf) :
    ∃ t, exec .swapb s = .next t ∧ ErrorOnly 2#3 s t := by
  obtain ⟨t, ht, herr⟩ := raise_errorOnly .outOfRange s
  exact ⟨t, (execSwapb_outOfRange hbuf).trans ht, herr⟩

theorem exec_swapb_malformed {s : State} (hbuf : s.rangeInBuf) (hn : s.l.toNat % 4 ≠ 0) :
    ∃ t, exec .swapb s = .next t ∧ ErrorOnly 1#3 s t := by
  obtain ⟨t, ht, herr⟩ := raise_errorOnly .malformedInput s
  exact ⟨t, (execSwapb_malformed hbuf hn).trans ht, herr⟩

theorem State.getElem?_memRead (s : State) (a : Nat) {n k : Nat} (hk : k < n) :
    (s.memRead a n)[k]? = some (s.byteAt (a + k)) := by
  simp [State.memRead, hk]

/-- A swap of whole groups reverses each of them, counted from the start of the range. -/
theorem State.byteAt_swapRange_group (s : State) {a n : Half} (hn : n.toNat % 4 = 0) {k j : Nat}
    (hk : 4 * k < n.toNat) (hj : j < 4) :
    (s.swapRange a n).byteAt (a.toNat + (4 * k + j)) = s.byteAt (a.toNat + (4 * k + 3 - j)) := by
  have hgroup : 4 * k + 3 < n.toNat := by omega
  apply Option.some.inj
  calc some ((s.swapRange a n).byteAt (a.toNat + (4 * k + j)))
      = ((s.swapRange a n).memRead a.toNat n.toNat)[4 * k + j]? := (State.getElem?_memRead _ _ (by omega)).symm
    _ = (swapseq (s.memRead a.toNat n.toNat))[4 * k + j]? := by rw [State.memRead_swapRange_same]
    _ = (s.memRead a.toNat n.toNat)[4 * k + 3 - j]? := getElem?_swapseq _ k j hj (by simpa using hgroup)
    _ = some (s.byteAt (a.toNat + (4 * k + 3 - j))) := State.getElem?_memRead _ _ (by omega)

/-- Settles O9, one outcome of SWAPB after another. -/
theorem swapbReversesEveryGroup : Obligations.SwapbReversesEveryGroup := by
  refine ⟨by decide, fun s hout => exec_swapb_outOfRange (not_le.mpr hout), fun s => exec_swapb_malformed,
    fun s hbuf hn => ⟨_, exec_swapb_swaps hbuf hn, ?group, ?outside, statusDone_of_succeed rfl, rfl⟩⟩
  case group => exact fun k j hk hj => State.byteAt_swapRange_group s hn hk hj
  case outside => exact State.byteAt_swapRange_outside s s.a s.l

/-! ## Each swap undoes itself (R105) -/

/-- Bytes that agree on a range, read whole, and outside it agree everywhere. -/
theorem sameBytes_of_memRead_eq {s t : State} {a n : Nat} (hin : t.memRead a n = s.memRead a n)
    (hout : SameBytesOutside a n s t) : SameBytes s t := fun i => by
  by_cases hi : a ≤ i ∧ i < a + n
  · obtain ⟨k, rfl⟩ := Nat.exists_eq_add_of_le hi.1
    have hk : k < n := by omega
    exact Option.some.inj (by rw [← State.getElem?_memRead t a hk, hin, State.getElem?_memRead s a hk])
  · exact hout i (by omega)

theorem sameBytes_swapRange_swapRange (s : State) (a n : Half) : SameBytes s ((s.swapRange a n).swapRange a n) := by
  refine sameBytes_of_memRead_eq (a := a.toNat) (n := n.toNat) ?_ fun i hi => ?_
  · rw [State.memRead_swapRange_same, State.memRead_swapRange_same, swapseq_swapseq]
  · rw [State.byteAt_swapRange_outside _ a n i hi, State.byteAt_swapRange_outside s a n i hi]

/-- Settles O24: SWAPB keeps A and L, so a second one swaps the same range back. -/
theorem swapsAreInvolutions : Obligations.SwapsAreInvolutions :=
  ⟨fun s hbuf hn => ⟨_, _, exec_swapb_swaps hbuf hn, exec_swapb_swapRange s hbuf hn,
      sameBytes_swapRange_swapRange s s.a s.l⟩,
    fun s => ⟨_, _, done_eq _, done_eq _, bswap32_bswap32 s.w⟩⟩

end Sys2Proof.Machine
end

section
/-! PROOFS. The statements of 41_checksum.md: what each checksum command does (R123-R127, R131), and the laws of the
sum (R121, R122, R130, R132, R133). -/
namespace Sys2Proof.Machine

/-! ## How the accumulator commands end (41_checksum.md R123-R126) -/

/-- The state in which an accumulator command ends, started from `s`, with `v` in ACC. -/
def State.withAcc (s : State) (v : Half) : State :=
  ((s.setAcc v).setR (v.setWidth 32)).setStatus (Status.succeed s.status)

theorem accDone_eq (v : Half) (s : State) : accDone v s = .next (s.withAcc v) := rfl

/-- The second of two successes finds ERR 0. -/
@[simp] theorem Status.succeed_succeed (st : Word) : Status.succeed (Status.succeed st) = Status.succeed st := by
  apply BitVec.eq_of_getLsbD_eq
  intro k _
  by_cases hk : 3 ≤ k <;> simp [Status.getLsbD_succeed, hk]

/-- Of two accumulator ends the later one stands. -/
@[simp] theorem State.withAcc_withAcc (s : State) (v w : Half) : (s.withAcc v).withAcc w = s.withAcc w := by
  simp [State.withAcc, State.setAcc, State.setR, State.setStatus]

theorem exec_ckaddw (s : State) : exec .ckaddw s = .next (s.withAcc (s.acc + s.wordOperand)) := accDone_eq _ s

theorem exec_ckadd {s : State} (h : s.rangeInBuf) : exec .ckadd s = .next (s.withAcc (s.acc + sum16 s.rangeBytes)) :=
  execCkadd_adds h

theorem exec_cksum {s : State} (h : s.rangeInBuf) : exec .cksum s = .next (s.withAcc (sum16 s.rangeBytes)) :=
  execCksum_sums h

/-- A command that reports OutOfRange changes ERR and EF alone. -/
theorem outOfRange_errorOnly {i : Instr} {s : State} (h : exec i s = raise .outOfRange s) :
    ∃ t, exec i s = .next t ∧ ErrorOnly 2#3 s t :=
  h ▸ raise_errorOnly .outOfRange s

theorem toNat_setWidth_word (v : Half) : (v.setWidth 32).toNat = v.toNat := BitVec.toNat_setWidth_of_le (by decide)

/-! ## The accumulator commands (R123-R126) -/

/-- Settles O10: CKCLR is the accumulator end with 0. -/
theorem ckclrClearsTheAccumulator : Obligations.CkclrClearsTheAccumulator :=
  ⟨by decide, accDone_accOnly 0⟩

theorem toNat_wordOperand (s : State) : s.wordOperand.toNat = s.w.toNat % 2 ^ 16 :=
  BitVec.extractLsb'_toNat 0 16 s.w

/-- Settles O11: `W[15:0]` as a number is W modulo 2^16. -/
theorem ckaddwAddsTheLowHalfOfW : Obligations.CkaddwAddsTheLowHalfOfW := by
  refine ⟨by decide, fun s => ⟨_, exec_ckaddw s, ?_, toNat_setWidth_word _, statusDone_of_succeed rfl, rfl⟩⟩
  show (s.acc + s.wordOperand).toNat = _
  rw [BitVec.toNat_add, toNat_wordOperand]

/-- The accumulator and the sum of a range, as a number. -/
theorem toNat_add_sum16_memRead (v : Half) (s : State) (a n : Nat) :
    (v + sum16 (s.memRead a n)).toNat = (v.toNat + s.wordSum a n) % 2 ^ 16 := by
  rw [BitVec.toNat_add, toNat_sum16_memRead, Nat.add_mod_mod]

/-- Settles O12: `sum16` of the range's bytes is the rule's sum modulo 2^16. -/
theorem ckaddAddsTheRange : Obligations.CkaddAddsTheRange :=
  ⟨by decide, fun _ hout => outOfRange_errorOnly (execCkadd_outOfRange (not_le.mpr hout)),
    fun s hbuf => ⟨_, exec_ckadd hbuf, toNat_add_sum16_memRead s.acc s s.a.toNat s.l.toNat, toNat_setWidth_word _,
      statusDone_of_succeed rfl, rfl⟩⟩

/-- CKADD after CKCLR ends where CKSUM does. -/
theorem exec_ckadd_after_ckclr {s : State} (h : s.rangeInBuf) :
    exec .ckadd (s.withAcc 0) = .next (s.withAcc (sum16 s.rangeBytes)) := by
  have hadd : exec .ckadd (s.withAcc 0) = .next ((s.withAcc 0).withAcc (0#16 + sum16 s.rangeBytes)) := exec_ckadd h
  rw [hadd, State.withAcc_withAcc, BitVec.zero_add]

/-- Settles O13, as O12, and CKCLR then CKADD end in the same state. -/
theorem cksumComputesTheRange : Obligations.CksumComputesTheRange :=
  ⟨by decide, fun _ hout => outOfRange_errorOnly (execCksum_outOfRange (not_le.mpr hout)),
    fun s hbuf => ⟨_, _, exec_cksum hbuf, toNat_sum16_memRead s s.a.toNat s.l.toNat, toNat_setWidth_word _,
      statusDone_of_succeed rfl, rfl, accDone_eq 0 s, exec_ckadd_after_ckclr hbuf⟩⟩

/-! ## The record commands (R127, R131) -/

/-- Settles O14: CKVER's end for the record's own two checksums. -/
theorem ckverVerifiesTheRecord : Obligations.CkverVerifiesTheRecord := by
  refine ⟨by decide, fun s hout => outOfRange_errorOnly (execCkver_outOfRange (not_le.mpr hout)), fun s hbuf => ?_⟩
  obtain ⟨t, ht, hacc, hexp, hr, hmm, hmms, hrest⟩ := verifyDone_next s.recordSum s.recordStored s
  rw [← hacc, ← hexp] at hr hmm hmms
  exact ⟨t, (execCkver_verifies hbuf).trans ht, hacc ▸ toNat_recordSum s, hexp ▸ toNat_recordStored s, hr, hmm, hmms,
    hrest⟩

theorem toNat_highByte (v : Half) : (v.extractLsb' 8 8).toNat = v.toNat / 256 := by
  have := v.isLt
  rw [BitVec.extractLsb'_toNat, Nat.shiftRight_eq_div_pow]
  omega

theorem toNat_lowByte (v : Half) : (v.extractLsb' 0 8).toNat = v.toNat % 256 := BitVec.extractLsb'_toNat 0 8 v

/-- What CKWR does to a record inside BUF: `storeChecksum_next` for the record's own sum. -/
theorem exec_ckwr_stores {s : State} (h : s.recordInBuf) :
    ∃ t, exec .ckwr s = .next t ∧ t.acc = s.recordSum ∧ t.r = s.recordSum.setWidth 32 ∧
      t.byteAt (s.rb.toNat + 0x1352) = s.recordSum.extractLsb' 8 8 ∧
      t.byteAt (s.rb.toNat + 0x1353) = s.recordSum.extractLsb' 0 8 ∧
      SameBytesOutside (s.rb.toNat + 0x1352) 2 s t ∧ StatusDone s t ∧
      t = { s with acc := t.acc, r := t.r, buf := t.buf, status := t.status } := by
  have heq : exec .ckwr s = storeChecksum s.recordSum s := execCkwr_stores h
  exact heq ▸ storeChecksum_next s.recordSum s

/-- Settles O15: CKWR's end for the record's own sum, whose two bytes are its quotient and remainder by 256. -/
theorem ckwrStoresTheChecksum : Obligations.CkwrStoresTheChecksum := by
  refine ⟨by decide, fun s hout => outOfRange_errorOnly (execCkwr_outOfRange (not_le.mpr hout)), fun s hbuf => ?_⟩
  obtain ⟨t, ht, hacc, hr, hhigh, hlow, hrest⟩ := exec_ckwr_stores hbuf
  rw [← hacc] at hr hhigh hlow
  exact ⟨t, ht, hacc ▸ toNat_recordSum s, hr ▸ toNat_setWidth_word t.acc, hhigh ▸ toNat_highByte t.acc,
    hlow ▸ toNat_lowByte t.acc, hrest⟩

/-! ## Two CKADDs one after another (R121, R122) -/

theorem State.sum16_memRead_add (s : State) (a n : Nat) {m : Nat} (hm : m % 2 = 0) :
    sum16 (s.memRead a (m + n)) = sum16 (s.memRead a m) + sum16 (s.memRead (a + m) n) := by
  rw [State.memRead_append, sum16_append _ _ (by simpa using hm)]

/-- Settles O26: A and L of the second CKADD and of the whole one do not wrap, and ACC carries the first piece's sum. -/
theorem checksumIsRolling : Obligations.ChecksumIsRolling := by
  intro s m n hbuf hm
  have ha : (s.a + m).toNat = s.a.toNat + m.toNat := BitVec.toNat_add_of_lt (by omega)
  have hl : (m + n).toNat = m.toNat + n.toNat := BitVec.toNat_add_of_lt (by omega)
  let t := (s.setL m).withAcc (s.acc + sum16 (s.memRead s.a.toNat m.toNat))
  have hfirst : exec .ckadd (s.setL m) = .next t :=
    exec_ckadd (show s.a.toNat + m.toNat ≤ 32768 by omega)
  have hsecond : exec .ckadd ((t.setA (s.a + m)).setL n)
      = .next (((t.setA (s.a + m)).setL n).withAcc (t.acc + sum16 (s.memRead (s.a + m).toNat n.toNat))) :=
    exec_ckadd (show (s.a + m).toNat + n.toNat ≤ 32768 by omega)
  have hwhole : exec .ckadd (s.setL (m + n))
      = .next ((s.setL (m + n)).withAcc (s.acc + sum16 (s.memRead s.a.toNat (m + n).toNat))) :=
    exec_ckadd (show s.a.toNat + (m + n).toNat ≤ 32768 by omega)
  have hsum : t.acc + sum16 (s.memRead (s.a + m).toNat n.toNat)
      = s.acc + sum16 (s.memRead s.a.toNat (m + n).toNat) := by
    rw [ha, hl, s.sum16_memRead_add _ _ hm, ← BitVec.add_assoc]
    rfl
  exact ⟨t, _, _, hfirst, hsecond, hwhole, hsum, congrArg (BitVec.setWidth 32) hsum⟩

/-- A range of odd length has as many whole words as the one a byte shorter. -/
theorem State.wordSum_pred_of_odd (s : State) (a : Nat) {n : Nat} (hn : n % 2 = 1) :
    s.wordSum a (n - 1) = s.wordSum a n := by
  have hwords : (n - 1) / 2 = n / 2 := by omega
  rw [State.wordSum, State.wordSum, hwords]

theorem State.wordSum_three (s : State) (a : Nat) :
    s.wordSum a 3 = (s.byteAt a).toNat * 256 + (s.byteAt (a + 1)).toNat := by
  simp [State.wordSum]

/-- A CKADD over an odd length ends with the ACC of the one over a byte less. -/
theorem add_sum16_memRead_pred_of_odd (v : Half) (s : State) (a : Nat) {n : Nat} (hn : n % 2 = 1) :
    v + sum16 (s.memRead a n) = v + sum16 (s.memRead a (n - 1)) :=
  BitVec.eq_of_toNat_eq (by rw [toNat_add_sum16_memRead, toNat_add_sum16_memRead, s.wordSum_pred_of_odd a hn])

/-- Settles O27: the sum counts whole words, and three bytes hold one. -/
theorem danglingByteIsDropped : Obligations.DanglingByteIsDropped := by
  constructor
  · intro s hbuf hodd
    have hl : (s.l - 1).toNat = s.l.toNat - 1 := BitVec.toNat_sub_of_le (by bv_omega)
    refine ⟨_, _, exec_ckadd hbuf, exec_ckadd (s := s.setL (s.l - 1)) ?_, ?_⟩
    · show s.a.toNat + (s.l - 1).toNat ≤ 32768
      omega
    · show s.acc + sum16 (s.memRead s.a.toNat s.l.toNat) = s.acc + sum16 (s.memRead s.a.toNat (s.l - 1).toNat)
      rw [hl, add_sum16_memRead_pred_of_odd s.acc s _ hodd]
  · intro s hbuf
    have ha : (s.a + 3#16).toNat = s.a.toNat + 3 := BitVec.toNat_add_of_lt (by show s.a.toNat + 3 < 65536; omega)
    let t := (s.setL 3#16).withAcc (s.acc + sum16 (s.memRead s.a.toNat 3))
    have hfirst : exec .ckadd (s.setL 3#16) = .next t := exec_ckadd (show s.a.toNat + 3 ≤ 32768 by omega)
    have hsecond : exec .ckadd (t.setA (s.a + 3#16))
        = .next ((t.setA (s.a + 3#16)).withAcc (t.acc + sum16 (s.memRead (s.a + 3#16).toNat 3))) :=
      exec_ckadd (show (s.a + 3#16).toNat + 3 ≤ 32768 by omega)
    have hacc : t.acc.toNat = (s.acc.toNat + s.wordSum s.a.toNat 3) % 2 ^ 16 := toNat_add_sum16_memRead s.acc s _ 3
    refine ⟨t, _, hfirst, hsecond, ?_⟩
    calc (t.acc + sum16 (s.memRead (s.a + 3#16).toNat 3)).toNat
        = (s.acc.toNat + s.wordSum s.a.toNat 3 + s.wordSum (s.a.toNat + 3) 3) % 2 ^ 16 := by
          rw [toNat_add_sum16_memRead, hacc, ha, Nat.mod_add_mod]
      _ = _ := by rw [State.wordSum_three, State.wordSum_three]

/-! ## The two checksums of a record, from one state to another (R130, R132, R133) -/

theorem be16_inj {a b c d : Byte} : be16 a b = be16 c d ↔ a = c ∧ b = d := by
  constructor
  · intro h
    have hb := b.isLt
    have hd := d.isLt
    unfold be16 at h
    exact ⟨BitVec.eq_of_toNat_eq (by omega), BitVec.eq_of_toNat_eq (by omega)⟩
  · rintro ⟨rfl, rfl⟩
    rfl

/-- The computed checksum depends on the bytes of the span alone. -/
theorem recordSum_congr {s t : State} (hrb : t.rb = s.rb)
    (h : ∀ k, k < 0x1352 → t.byteAt (s.rb.toNat + k) = s.byteAt (s.rb.toNat + k)) : t.recordSum = s.recordSum := by
  rw [State.recordSum, State.recordSum, hrb, State.memRead_congr s t _ _ h]

theorem toNat_recordStored_be16 (s : State) :
    s.recordStored.toNat = be16 (s.byteAt (s.rb.toNat + 0x1352)) (s.byteAt (s.rb.toNat + 0x1353)) :=
  toNat_recordStored s

/-- The stored checksum is the two bytes of the field, and no others. -/
theorem recordStored_eq_iff {s t : State} (hrb : t.rb = s.rb) :
    t.recordStored = s.recordStored ↔ t.byteAt (s.rb.toNat + 0x1352) = s.byteAt (s.rb.toNat + 0x1352) ∧
      t.byteAt (s.rb.toNat + 0x1353) = s.byteAt (s.rb.toNat + 0x1353) := by
  rw [← BitVec.toNat_inj, toNat_recordStored_be16, toNat_recordStored_be16, hrb, be16_inj]

/-- CKVER on a record inside BUF: the two checksums, and MM says whether they differ. -/
theorem exec_ckver_verdict {s : State} (h : s.recordInBuf) :
    ∃ t, exec .ckver s = .next t ∧ t.acc = s.recordSum ∧ t.expected = s.recordStored ∧
      (Status.mm t.status = true ↔ s.recordSum ≠ s.recordStored) := by
  obtain ⟨t, ht, hacc, hexp, -, hmm, -⟩ := verifyDone_next s.recordSum s.recordStored s
  exact ⟨t, (execCkver_verifies h).trans ht, hacc, hexp, hmm⟩

/-- A CKVER passes exactly on equal checksums. -/
theorem exec_ckver_passes_iff {s t : State} (h : s.recordInBuf) (ht : exec .ckver s = .next t) :
    Status.mm t.status = false ↔ s.recordSum = s.recordStored := by
  obtain ⟨u, hu, -, -, hmm⟩ := exec_ckver_verdict h
  cases hu.symm.trans ht
  rw [← Bool.not_eq_true, hmm, not_not]

/-! ## One changed byte (R130) -/

/-- The state with one byte of the record at RB written. -/
def State.pokeRecord (s : State) (k : Nat) (b : Byte) : State := s.memWrite (s.rb.toNat + k) [b]

@[simp] theorem State.pokeRecord_rb (s : State) (k : Nat) (b : Byte) : (s.pokeRecord k b).rb = s.rb := rfl

theorem State.byteAt_pokeRecord_same (s : State) (k : Nat) (b : Byte) :
    (s.pokeRecord k b).byteAt (s.rb.toNat + k) = b :=
  State.byteAt_memWrite_inside s (s.rb.toNat + k) [b] 0 (by simp)

theorem State.byteAt_pokeRecord_other (s : State) {k j : Nat} (b : Byte) (hj : j ≠ k) :
    (s.pokeRecord k b).byteAt (s.rb.toNat + j) = s.byteAt (s.rb.toNat + j) :=
  State.byteAt_memWrite_outside s (s.rb.toNat + k) [b] _ (by simp only [List.length_singleton]; omega)

theorem State.memRead_pokeRecord (s : State) (k n : Nat) (b : Byte) :
    (s.pokeRecord k b).memRead s.rb.toNat n = (s.memRead s.rb.toNat n).set k b := by
  apply List.ext_getElem
  · simp
  · intro j _ _
    rw [State.getElem_memRead, List.getElem_set, State.getElem_memRead]
    split
    · next hkj => rw [← hkj, State.byteAt_pokeRecord_same]
    · next hkj => exact State.byteAt_pokeRecord_other s b (Ne.symm hkj)

/-- A changed byte of the span changes the computed checksum. -/
theorem recordSum_pokeRecord_ne {s : State} {k : Nat} {b : Byte} (hk : k < 0x1352)
    (hb : b ≠ s.byteAt (s.rb.toNat + k)) : (s.pokeRecord k b).recordSum ≠ s.recordSum := by
  rw [State.recordSum, State.recordSum, State.pokeRecord_rb, State.memRead_pokeRecord]
  apply sum16_set_ne
  · rw [State.length_memRead]
    exact hk
  · rw [List.getD_eq_getElem _ _ (by rw [State.length_memRead]; exact hk), State.getElem_memRead]
    exact hb.symm

/-- A byte outside the span leaves the computed checksum. -/
theorem recordSum_pokeRecord_of_ge (s : State) {k : Nat} (b : Byte) (hk : 0x1352 ≤ k) :
    (s.pokeRecord k b).recordSum = s.recordSum :=
  recordSum_congr rfl fun j hj => State.byteAt_pokeRecord_other s b (by omega)

/-- A byte outside the field leaves the stored checksum. -/
theorem recordStored_pokeRecord_eq (s : State) {k : Nat} (b : Byte) (h0 : k ≠ 0x1352) (h1 : k ≠ 0x1353) :
    (s.pokeRecord k b).recordStored = s.recordStored :=
  (recordStored_eq_iff (s.pokeRecord_rb k b)).mpr
    ⟨State.byteAt_pokeRecord_other s b h0.symm, State.byteAt_pokeRecord_other s b h1.symm⟩

/-- A changed byte of the field changes the stored checksum. -/
theorem recordStored_pokeRecord_ne {s : State} {k : Nat} {b : Byte} (hk : k = 0x1352 ∨ k = 0x1353)
    (hb : b ≠ s.byteAt (s.rb.toNat + k)) : (s.pokeRecord k b).recordStored ≠ s.recordStored := by
  intro heq
  obtain ⟨hhigh, hlow⟩ := (recordStored_eq_iff (s.pokeRecord_rb k b)).mp heq
  apply hb
  rw [← s.byteAt_pokeRecord_same k b]
  rcases hk with rfl | rfl
  · exact hhigh
  · exact hlow

/-- In a passing record, a changed byte below 0x1354 sets the two checksums apart: it changes one of them alone. -/
theorem recordSum_ne_recordStored_of_poke {s : State} {k : Nat} {b : Byte} (hpass : s.recordSum = s.recordStored)
    (hk : k < 0x1354) (hb : b ≠ s.byteAt (s.rb.toNat + k)) :
    (s.pokeRecord k b).recordSum ≠ (s.pokeRecord k b).recordStored := by
  by_cases hspan : k < 0x1352
  · rw [recordStored_pokeRecord_eq s b (by omega) (by omega), ← hpass]
    exact recordSum_pokeRecord_ne hspan hb
  · rw [recordSum_pokeRecord_of_ge s b (by omega), hpass]
    exact (recordStored_pokeRecord_ne (by omega) hb).symm

/-- Settles O28: a byte of the span changes the computed checksum, one of the field the stored one, one beyond
neither. -/
theorem oneChangedByteFlipsThePass : Obligations.OneChangedByteFlipsThePass := by
  constructor
  · intro s k b hbuf hk hb
    obtain ⟨t, ht, hacc, -⟩ := exec_ckver_verdict (s := s) hbuf
    obtain ⟨u, hu, hacc', -⟩ := exec_ckver_verdict (s := s.pokeRecord k b) hbuf
    exact ⟨t, u, ht, hu, by rw [hacc, hacc']; exact recordSum_pokeRecord_ne hk hb⟩
  · intro s t k b hbuf ht hmm _ hb
    have hpass : s.recordSum = s.recordStored := (exec_ckver_passes_iff hbuf ht).mp hmm
    have hbuf' : (s.pokeRecord k b).recordInBuf := hbuf
    obtain ⟨u, hu, -, -, hverdict⟩ := exec_ckver_verdict hbuf'
    refine ⟨u, hu, fun hk => hverdict.mpr (recordSum_ne_recordStored_of_poke hpass hk hb), fun hk => ?_⟩
    rw [exec_ckver_passes_iff hbuf' hu, recordSum_pokeRecord_of_ge s b (by omega),
      recordStored_pokeRecord_eq s b (by omega) (by omega), hpass]

/-! ## CKVER after CKWR (R132) -/

/-- Settles O29: the span is as CKWR summed it, and the field holds that sum. -/
theorem ckverPassesAfterCkwr : Obligations.CkverPassesAfterCkwr := by
  intro s s' hbuf
  obtain ⟨t, ht, hacc, -, hhigh, hlow, hout, -, hframe⟩ := exec_ckwr_stores hbuf
  refine ⟨t, ht, fun hrb hbytes => ?_⟩
  have hrb' : s'.rb = s.rb := by rw [hrb, hframe]
  have hsum : s'.recordSum = s.recordSum :=
    recordSum_congr hrb' fun k hk => (hbytes k (by omega)).trans (hout _ (by omega))
  have hstored : s'.recordStored = s.recordSum := by
    apply BitVec.eq_of_toNat_eq
    rw [toNat_recordStored_be16, hrb', hbytes 0x1352 (by omega), hbytes 0x1353 (by omega), hhigh, hlow, be16_extract]
  have hbuf' : s'.recordInBuf := by rwa [State.recordInBuf, hrb']
  obtain ⟨u, hu, hacc', hexp, -⟩ := exec_ckver_verdict hbuf'
  exact ⟨u, hu, (exec_ckver_passes_iff hbuf' hu).mpr (hsum.trans hstored.symm),
    by rw [hexp, hacc', hstored, hsum], by rw [hacc', hsum, hacc]⟩

/-! ## What the checksum commands read (R133) -/

theorem exec_ckadd_acc {s t : State} (h : s.rangeInBuf) (ht : exec .ckadd s = .next t) :
    t.acc = s.acc + sum16 s.rangeBytes := by
  cases (exec_ckadd h).symm.trans ht
  rfl

theorem exec_cksum_acc {s t : State} (h : s.rangeInBuf) (ht : exec .cksum s = .next t) : t.acc = sum16 s.rangeBytes := by
  cases (exec_cksum h).symm.trans ht
  rfl

theorem exec_ckaddw_acc {s t : State} (ht : exec .ckaddw s = .next t) : t.acc = s.acc + s.wordOperand := by
  cases (exec_ckaddw s).symm.trans ht
  rfl

theorem exec_ckver_acc {s t : State} (h : s.recordInBuf) (ht : exec .ckver s = .next t) : t.acc = s.recordSum := by
  obtain ⟨u, hu, hacc, -⟩ := exec_ckver_verdict h
  cases hu.symm.trans ht
  exact hacc

theorem exec_ckwr_acc {s t : State} (h : s.recordInBuf) (ht : exec .ckwr s = .next t) : t.acc = s.recordSum := by
  obtain ⟨u, hu, hacc, -⟩ := exec_ckwr_stores h
  cases hu.symm.trans ht
  exact hacc

/-- Settles O30: the ACC of each command is a function of what its rule names. -/
theorem checksumsReadOnlyWhatTheyName : Obligations.ChecksumsReadOnlyWhatTheyName := by
  refine ⟨fun s s' t t' ha hl hbytes hbuf => ?range, fun s s' t t' hacc hw ht ht' => ?word,
    fun s s' t t' hrb hbuf hbytes => ?record⟩
  case range =>
    have hbuf' : s'.rangeInBuf := by rwa [State.rangeInBuf, ha, hl]
    have hrange : s'.rangeBytes = s.rangeBytes := by
      rw [State.rangeBytes, State.rangeBytes, ha, hl, State.memRead_congr s s' _ _ hbytes]
    constructor
    · intro ht ht'
      rw [exec_cksum_acc hbuf ht, exec_cksum_acc hbuf' ht', hrange]
    · intro hacc ht ht'
      rw [exec_ckadd_acc hbuf ht, exec_ckadd_acc hbuf' ht', hacc, hrange]
  case word =>
    rw [exec_ckaddw_acc ht, exec_ckaddw_acc ht', hacc, State.wordOperand, State.wordOperand, hw]
  case record =>
    have hbuf' : s'.recordInBuf := by rwa [State.recordInBuf, hrb]
    have hsum : s'.recordSum = s.recordSum := recordSum_congr hrb hbytes
    constructor
    · intro ht ht'
      rw [exec_ckver_acc hbuf ht, exec_ckver_acc hbuf' ht', hsum]
    · intro ht ht'
      rw [exec_ckwr_acc hbuf ht, exec_ckwr_acc hbuf' ht', hsum]

end Sys2Proof.Machine
end

section
/-! PROOFS. The statements of 42_lut_text.md: the character table (R151), what LUTB, TXTDEC and TXTNAME do
(R155-R157), and that no text command emits a 0x00 or a '0' (R152, R156). -/
namespace Sys2Proof.Machine

/-! ## The character table, one range after another (R151) -/

theorem lut_of_digit {b : Byte} (h1 : 1 ≤ b.toNat) (h9 : b.toNat ≤ 9) :
    lut b = some (BitVec.ofNat 8 (b.toNat + 0x30)) := by
  have hcode : b + 0x30#8 = BitVec.ofNat 8 (b.toNat + 0x30) := by bv_omega
  simp only [lut]
  rw [← hcode, if_pos ⟨h1, h9⟩]

theorem lut_of_capital {b : Byte} (h171 : 171 ≤ b.toNat) (h196 : b.toNat ≤ 196) :
    lut b = some (BitVec.ofNat 8 (b.toNat - 106)) := by
  have hcode : b - 106#8 = BitVec.ofNat 8 (b.toNat - 106) := by bv_omega
  simp only [lut]
  rw [← hcode, if_neg (by omega), if_pos ⟨h171, h196⟩]

theorem lut_of_small {b : Byte} (h197 : 197 ≤ b.toNat) (h222 : b.toNat ≤ 222) :
    lut b = some (BitVec.ofNat 8 (b.toNat - 100)) := by
  have hcode : b - 100#8 = BitVec.ofNat 8 (b.toNat - 100) := by bv_omega
  simp only [lut]
  rw [← hcode, if_neg (by omega), if_neg (by omega), if_pos ⟨h197, h222⟩]

/-- An entry of a single byte is read off the table at that byte. -/
theorem lut_of_toNat_eq {b c : Byte} (h : b.toNat = c.toNat) : lut b = lut c := by rw [BitVec.eq_of_toNat_eq h]

/-- The bytes between the ranges of the table, and those around them, emit nothing. -/
theorem lut_of_gap {b : Byte} (hdigit : b.toNat = 0 ∨ 10 ≤ b.toNat) (hletter : b.toNat ≤ 170 ∨ 224 ≤ b.toNat)
    (hdash : b.toNat ≠ 228) (hdot : b.toNat ≠ 234) : lut b = none := by
  simp only [lut]
  rw [if_neg (by omega), if_neg (by omega), if_neg (by omega), if_neg (by omega), if_neg hdash, if_neg hdot]

/-- Settles O16, one row of the table after another. -/
theorem lutIsTheCharacterTable : Obligations.LutIsTheCharacterTable := fun _ =>
  ⟨fun h => lut_of_toNat_eq (c := 0#8) h,
    lut_of_digit,
    fun h10 h170 => lut_of_gap (.inr h10) (.inl h170) (by omega) (by omega),
    lut_of_capital,
    lut_of_small,
    fun h => lut_of_toNat_eq (c := 223#8) h,
    fun h224 h227 => lut_of_gap (by omega) (.inr h224) (by omega) (by omega),
    fun h => lut_of_toNat_eq (c := 228#8) h,
    fun h229 h233 => lut_of_gap (by omega) (.inr (by omega)) (by omega) (by omega),
    fun h => lut_of_toNat_eq (c := 234#8) h,
    fun h235 => lut_of_gap (by omega) (.inr (by omega)) (by omega) (by omega)⟩

/-! ## LUTB (R155) -/

theorem charOperand_eq_ofNat (s : State) : s.charOperand = BitVec.ofNat 8 (s.w.toNat % 256) := by
  apply BitVec.eq_of_toNat_eq
  rw [State.charOperand, BitVec.extractLsb'_toNat, BitVec.toNat_ofNat, Nat.mod_mod]
  rfl

theorem exec_lutb_of_none {s : State} (h : lut s.charOperand = none) : exec .lutb s = done (s.setR 0) := by
  simp only [exec, execLutb, h]

theorem exec_lutb_of_some {s : State} {code : Byte} (h : lut s.charOperand = some code) :
    exec .lutb s = done (s.setR (0x100#32 + code.setWidth 32)) := by
  simp only [exec, execLutb, h]

/-- Bit 8 and a code below it, as a number. -/
theorem toNat_emitted (code : Byte) : (0x100#32 + code.setWidth 32).toNat = 0x100 + code.toNat := by bv_omega

/-- Settles O17: LUTB answers through R and ERR alone, whether its byte emits or not. -/
theorem lutbLooksUpTheByte : Obligations.LutbLooksUpTheByte := by
  refine ⟨by decide, fun s => ?_⟩
  rw [← charOperand_eq_ofNat]
  cases hlut : lut s.charOperand with
  | none =>
    obtain ⟨t, ht, hr, hstatus, hframe⟩ := done_setR 0 s
    exact ⟨t, (exec_lutb_of_none hlut).trans ht, fun _ => hr, nofun, hstatus, hframe⟩
  | some code =>
    obtain ⟨t, ht, hr, hstatus, hframe⟩ := done_setR (0x100#32 + code.setWidth 32) s
    refine ⟨t, (exec_lutb_of_some hlut).trans ht, nofun, fun c hc => ?_, hstatus, hframe⟩
    rw [hr, toNat_emitted, Option.some.inj hc]

/-! ## How the text commands end (R156, R157) -/

/-- The end of a text command that decoded the `n` bytes of BUF at `a`: their codes stand at D and their number in R,
it succeeded, and everything else is as before. -/
structure EmitsCodes (a n : Nat) (s t : State) : Prop where
  count : t.r.toNat = (s.codes a n).length
  text : ∀ k code, (s.codes a n)[k]? = some code → t.byteAt (s.d.toNat + k) = code
  outside : SameBytesOutside s.d.toNat (s.codes a n).length s t
  status : StatusDone s t
  frame : t = { s with r := t.r, buf := t.buf, status := t.status }

theorem textDone_emitsCodes (s : State) (a : Nat) {n : Nat} (hn : n < 2 ^ 32) :
    ∃ t, textDone (textdec (s.memRead a n)) s = .next t ∧ EmitsCodes a n s t := by
  rw [textdec_memRead]
  obtain ⟨t, ht, hcount, htext, houtside, hstatus, hframe⟩ :=
    textDone_next (s.codes a n) s ((length_codes_le s a n).trans_lt hn)
  exact ⟨t, ht, hcount, htext, houtside, hstatus, hframe⟩

theorem EmitsCodes.count_le {a n : Nat} {s t : State} (h : EmitsCodes a n s t) : t.r.toNat ≤ n :=
  h.count.trans_le (length_codes_le s a n)

/-- What a range of BUF decodes to is an entry of the table, so it is neither 0x00 nor '0' (R152). -/
theorem code_ne {s : State} {a n k : Nat} {code : Byte} (h : (s.codes a n)[k]? = some code) :
    code ≠ 0x00#8 ∧ code ≠ 0x30#8 := by
  have hmem : code ∈ textdec (s.memRead a n) := textdec_memRead s a n ▸ List.mem_of_getElem? h
  obtain ⟨_, -, hlut⟩ := mem_textdec hmem
  exact lut_ne hlut

theorem EmitsCodes.byteAt_ne {a n k : Nat} {s t : State} (h : EmitsCodes a n s t) (hk : k < t.r.toNat) :
    t.byteAt (s.d.toNat + k) ≠ 0x00#8 ∧ t.byteAt (s.d.toNat + k) ≠ 0x30#8 := by
  have hcode := List.getElem?_eq_getElem (h.count ▸ hk)
  rw [h.text k _ hcode]
  exact code_ne hcode

theorem exec_txtdec_outOfRange {s : State} (h : ¬ (s.rangeInBuf ∧ InBuf s.d.toNat s.l.toNat)) :
    exec .txtdec s = raise .outOfRange s :=
  execTxtdec_outOfRange (not_and_or.mp h)

theorem exec_txtdec_emits {s : State} (h : s.rangeInBuf ∧ InBuf s.d.toNat s.l.toNat) :
    ∃ t, exec .txtdec s = .next t ∧ EmitsCodes s.a.toNat s.l.toNat s t := by
  obtain ⟨t, ht, hemits⟩ := textDone_emitsCodes s s.a.toNat (n := s.l.toNat) (by have := s.l.isLt; omega)
  exact ⟨t, (execTxtdec_decodes h.1 h.2).trans ht, hemits⟩

theorem exec_txtname_outOfRange {s : State} (h : ¬ (s.recordInBuf ∧ InBuf s.d.toNat Config.nameLen)) :
    exec .txtname s = raise .outOfRange s :=
  execTxtname_outOfRange (not_and_or.mp h)

theorem exec_txtname_emits {s : State} (h : s.recordInBuf ∧ InBuf s.d.toNat Config.nameLen) :
    ∃ t, exec .txtname s = .next t ∧ EmitsCodes (s.rb.toNat + 0x24) 8 s t := by
  obtain ⟨t, ht, hemits⟩ := textDone_emitsCodes s (s.rb.toNat + 0x24) (n := 8) (by decide)
  exact ⟨t, (execTxtname_decodes h.1 h.2).trans ht, hemits⟩

/-! ## TXTDEC and TXTNAME (R156, R157) -/

/-- Settles O18: TXTDEC's end for its own range, whose codes number at most L. -/
theorem txtdecDecodesTheRange : Obligations.TxtdecDecodesTheRange := by
  refine ⟨by decide, fun s hout => outOfRange_errorOnly (execTxtdec_outOfRange (hout.imp not_le.mpr not_le.mpr)),
    fun s hsrc hdst => ?_⟩
  obtain ⟨t, ht, hemits⟩ := exec_txtdec_emits ⟨hsrc, hdst⟩
  exact ⟨t, ht, hemits.count, hemits.count_le, fun k code hk => ⟨hemits.text k code hk, (code_ne hk).1⟩,
    hemits.outside, hemits.status, hemits.frame⟩

/-- Settles O19: TXTNAME's end for the name field of its record. -/
theorem txtnameDecodesTheName : Obligations.TxtnameDecodesTheName := by
  refine ⟨by decide, fun s hout => outOfRange_errorOnly (execTxtname_outOfRange (hout.imp not_le.mpr not_le.mpr)),
    fun s hrec hdst => ?_⟩
  obtain ⟨t, ht, hemits⟩ := exec_txtname_emits ⟨hrec, hdst⟩
  exact ⟨t, ht, hemits.count, hemits.count_le, hemits.text, hemits.outside, hemits.status, hemits.frame⟩

/-! ## No 0x00 and no '0' (R152, R156) -/

/-- A text command that ended with ERR 0 did not report OutOfRange, so its ranges are inside BUF and it decoded. -/
theorem emitsCodes_of_err_zero {i : Instr} {s t : State} {inRange : Prop} {a n : Nat}
    (hout : ¬ inRange → exec i s = raise .outOfRange s)
    (hin : inRange → ∃ u, exec i s = .next u ∧ EmitsCodes a n s u) (h : exec i s = .next t)
    (herr : Status.err t.status = 0) : EmitsCodes a n s t := by
  by_cases hrange : inRange
  · obtain ⟨u, hu, hemits⟩ := hin hrange
    obtain rfl : t = u := Host.Outcome.next.inj (h.symm.trans hu)
    exact hemits
  · obtain ⟨u, hu, hcode, -⟩ := outOfRange_errorOnly (hout hrange)
    obtain rfl : t = u := Host.Outcome.next.inj (h.symm.trans hu)
    exact absurd (hcode.symm.trans herr) (by decide)

/-- A text command that succeeded decoded some range of BUF. -/
theorem exec_text_emits {i : Instr} {s t : State} (hi : i = .txtdec ∨ i = .txtname) (h : exec i s = .next t)
    (herr : Status.err t.status = 0) : ∃ a n, EmitsCodes a n s t := by
  rcases hi with rfl | rfl
  · exact ⟨_, _, emitsCodes_of_err_zero exec_txtdec_outOfRange exec_txtdec_emits h herr⟩
  · exact ⟨_, _, emitsCodes_of_err_zero exec_txtname_outOfRange exec_txtname_emits h herr⟩

/-- Settles O31: every emitted byte is an entry of the table, and no entry is 0x00 or '0'. -/
theorem textNeverEmitsNulOrZero : Obligations.TextNeverEmitsNulOrZero := by
  refine ⟨lut_of_gap (.inl rfl) (.inl (by decide)) (by decide) (by decide), fun b hb => (lut_ne hb).2 rfl,
    fun i s t hi h herr k hk => ?_⟩
  obtain ⟨a, n, hemits⟩ := exec_text_emits hi h herr
  exact hemits.byteAt_ne hk

end Sys2Proof.Machine
end

section
/-! PROOFS. The statements of 43_field_mux.md: what RD16, RD8, RDBIT and FLD do (R171-R175), and that they write R and
STATUS alone (R178). -/
namespace Sys2Proof

/-! ## A command's word by number (30_encoding.md R81, R82) -/

theorem toNat_encode {i : Instr} {opc : Nat} (hopc : (opcodeByte (instrOpcode i)).toNat = opc) :
    (encode i).toNat = (instrImm i).toNat * 2 ^ 16 + (instrBit i).toNat * 2 ^ 8 + opc := by
  simp [encode, toNat_cmdWord, hopc]

theorem toNat_encode_of_bit_zero {i : Instr} {opc : Nat} (hopc : (opcodeByte (instrOpcode i)).toNat = opc)
    (hbit : instrBit i = 0) : (encode i).toNat = (instrImm i).toNat * 2 ^ 16 + opc := by
  simp [toNat_encode hopc, hbit]

/-- Of the words the encoder writes, the decoder admits the well-formed commands' alone. -/
theorem wellFormed_of_decode_encode {i j : Instr} (h : decode (encode i) = .ok j) : i.wellFormed = true := by
  obtain ⟨m, hm, hfields⟩ := (exists_decode_ok_iff _).mp ⟨j, h⟩
  obtain rfl : instrOpcode i = m := by simpa [encode] using hm
  exact (wellFormed_iff i).mpr (by simpa [encode] using hfields.sel)

theorem decode_encode_error {i : Instr} (h : i.wellFormed = false) : ∃ e, decode (encode i) = .error e :=
  (exists_decode_error_iff _).mpr fun ⟨_, hj⟩ => Bool.false_ne_true (h.symm.trans (wellFormed_of_decode_encode hj))

end Sys2Proof

namespace Sys2Proof.Machine

/-! ## How an FMX command ends (R170) -/

theorem readRecord_errorOnly {offset n : Nat} {v : Word} {s : State}
    (h : 32768 < s.rb.toNat + 5200 ∨ 5200 < offset + n) :
    ∃ t, readRecord offset n v s = .next t ∧ ErrorOnly 2#3 s t :=
  readRecord_outOfRange (h.imp not_le.mpr not_le.mpr) ▸ raise_errorOnly .outOfRange s

theorem readRecord_resultOnly {offset n : Nat} {v : Word} {s : State} (h : s.recordInBuf) (hn : InRecord offset n) :
    ∃ t, readRecord offset n v s = .next t ∧ ResultOnly v s t :=
  readRecord_reads h hn ▸ done_setR v s

theorem errorOnly_of_raise {e : ErrorKind} {s t : State} (h : raise e s = .next t) : ErrorOnly (errorCode e) s t := by
  obtain ⟨u, hu, herr⟩ := raise_errorOnly e s
  exact Host.Outcome.next.inj (hu.symm.trans h) ▸ herr

theorem resultOnly_of_done_setR {v : Word} {s t : State} (h : done (s.setR v) = .next t) : ResultOnly v s t := by
  obtain ⟨u, hu, hv⟩ := done_setR v s
  exact Host.Outcome.next.inj (hu.symm.trans h) ▸ hv

/-- What a next state of an FMX read is. -/
theorem readRecord_next {offset n : Nat} {v : Word} {s t : State} (h : readRecord offset n v s = .next t) :
    ErrorOnly 2#3 s t ∨ ResultOnly v s t := by
  rcases readRecord_cases offset n v s with ⟨-, he⟩ | ⟨-, -, he⟩ | ⟨-, -, hv⟩
  · exact .inl (errorOnly_of_raise (he.symm.trans h))
  · exact .inl (errorOnly_of_raise (he.symm.trans h))
  · exact .inr (resultOnly_of_done_setR (hv.symm.trans h))

/-- An FMX read that ended with ERR 0 did not report OutOfRange, so R holds the value read. -/
theorem readRecord_r_of_err_zero {offset n : Nat} {v : Word} {s t : State} (h : readRecord offset n v s = .next t)
    (hzero : Status.err t.status = 0) : t.r = v := by
  rcases readRecord_next h with ⟨hcode, -⟩ | ⟨hr, -⟩
  · exact absurd (hcode.symm.trans hzero) (by decide)
  · exact hr

/-! ## The values read (R171-R173) -/

theorem toNat_recordField_bits16 (s : State) (offset : Nat) :
    (s.recordField offset .bits16).toNat
      = (s.byteAt (s.rb.toNat + offset)).toNat * 256 + (s.byteAt (s.rb.toNat + offset + 1)).toNat :=
  (BitVec.toNat_ofNat _ 32).trans (Nat.mod_eq_of_lt ((be16_lt _ _).trans (by decide)))

theorem toNat_recordField_bits8 (s : State) (offset : Nat) :
    (s.recordField offset .bits8).toNat = (s.byteAt (s.rb.toNat + offset)).toNat :=
  BitVec.toNat_setWidth_of_le (by decide)

theorem recordField_bits16_of_bytes {s : State} {offset : Nat} {b0 b1 : Byte}
    (h0 : s.byteAt (s.rb.toNat + offset) = b0) (h1 : s.byteAt (s.rb.toNat + offset + 1) = b1) :
    s.recordField offset .bits16 = BitVec.ofNat 32 (be16 b0 b1) :=
  congrArg (BitVec.ofNat 32) (congrArg₂ be16 h0 h1)

/-- A bit, zero-extended, as a number: bit 0 is the least significant. -/
theorem toNat_bitWord (b : Byte) (k : Nat) :
    ((BitVec.ofBool (b.getLsbD k)).setWidth 32).toNat = b.toNat / 2 ^ k % 2 := by
  rw [BitVec.toNat_setWidth_of_le (by decide), BitVec.toNat_ofBool, BitVec.getLsbD, Nat.toNat_testBit]

theorem bitWord_eq_zero_or_one (x : Bool) :
    (BitVec.ofBool x).setWidth 32 = 0#32 ∨ (BitVec.ofBool x).setWidth 32 = 1#32 := by
  cases x
  · exact .inl rfl
  · exact .inr rfl

/-! ## RD16, RD8 and RDBIT (R171-R173) -/

theorem exec_rd16 (imm : Half) (s : State) :
    exec (.rd16 imm) s = readRecord imm.toNat 2 (s.recordField imm.toNat .bits16) s := rfl

theorem exec_rd8 (imm : Half) (s : State) :
    exec (.rd8 imm) s = readRecord imm.toNat 1 (s.recordField imm.toNat .bits8) s := rfl

theorem exec_rdbit (imm : Half) (bit : BitVec 3) (s : State) :
    exec (.rdbit imm bit) s
      = readRecord imm.toNat 1
          ((BitVec.ofBool ((s.byteAt (s.recordIndex imm.toNat)).getLsbD bit.toNat)).setWidth 32) s := rfl

theorem exec_rd16_reads {imm : Half} {s : State} (h : s.recordInBuf) (hn : InRecord imm.toNat 2) :
    ∃ t, exec (.rd16 imm) s = .next t ∧
      t.r.toNat = (s.byteAt (s.rb.toNat + imm.toNat)).toNat * 256 + (s.byteAt (s.rb.toNat + imm.toNat + 1)).toNat ∧
      StatusDone s t ∧ t = { s with r := t.r, status := t.status } := by
  obtain ⟨t, ht, hr, hrest⟩ := readRecord_resultOnly (v := s.recordField imm.toNat .bits16) h hn
  exact ⟨t, ht, hr ▸ toNat_recordField_bits16 s imm.toNat, hrest⟩

/-- Settles O20: RD16 reads two bytes of the record, or one of its two bounds fails. -/
theorem rd16ReadsABigEndianField : Obligations.Rd16ReadsABigEndianField :=
  ⟨fun imm => toNat_encode_of_bit_zero (i := .rd16 imm) rfl rfl,
    fun imm s hout => exec_rd16 imm s ▸ readRecord_errorOnly hout,
    fun _ _ => exec_rd16_reads⟩

theorem exec_rd8_reads {imm : Half} {s : State} (h : s.recordInBuf) (hn : InRecord imm.toNat 1) :
    ∃ t, exec (.rd8 imm) s = .next t ∧ t.r.toNat = (s.byteAt (s.rb.toNat + imm.toNat)).toNat ∧
      StatusDone s t ∧ t = { s with r := t.r, status := t.status } := by
  obtain ⟨t, ht, hr, hrest⟩ := readRecord_resultOnly (v := s.recordField imm.toNat .bits8) h hn
  exact ⟨t, ht, hr ▸ toNat_recordField_bits8 s imm.toNat, hrest⟩

/-- Settles O21: RD8 reads one byte of the record, or one of its two bounds fails. -/
theorem rd8ReadsAByte : Obligations.Rd8ReadsAByte :=
  ⟨fun imm => toNat_encode_of_bit_zero (i := .rd8 imm) rfl rfl,
    fun imm s hout => exec_rd8 imm s ▸ readRecord_errorOnly hout,
    fun _ _ => exec_rd8_reads⟩

/-- Settles O22: RDBIT reads one bit of the record, or one of its two bounds fails. -/
theorem rdbitReadsABit : Obligations.RdbitReadsABit := by
  refine ⟨fun imm bit => toNat_encode (i := .rdbit imm bit) rfl,
    fun imm bit s hout => exec_rdbit imm bit s ▸ readRecord_errorOnly hout,
    fun imm bit s hbuf hn => ?_⟩
  rw [exec_rdbit]
  obtain ⟨t, ht, hr, hrest⟩ := readRecord_resultOnly hbuf hn
  exact ⟨t, ht, hr ▸ toNat_bitWord (s.byteAt (s.rb.toNat + imm.toNat)) bit.toNat, hrest⟩

/-! ## FLD and the fixed-field table (R174, R175) -/

/-- Every selector from 0 to 5 has a row. -/
theorem exists_fieldRow {sel : Half} (h : sel.toNat ≤ Instr.maxSelector) : ∃ row, fieldRow sel = some row :=
  ⟨_, List.getElem?_eq_getElem (Nat.lt_succ_of_le h)⟩

/-- Every row's field is inside a record, so FLD's field bound never fails. -/
theorem inRecord_of_fieldRow {sel : Half} {row : FieldRow} (h : fieldRow sel = some row) :
    InRecord row.offset row.width.bytes := by
  have htable : ∀ row ∈ fieldTable, InRecord row.offset row.width.bytes := by decide
  exact htable row (List.mem_of_getElem? h)

/-- The rows before SLOTIDX's are 16 bits wide. -/
theorem fieldRow_bits16 {sel : Half} {offset : Nat}
    (h : [0x34, 0x22, 0x2E, 0x30, 0x1352][sel.toNat]? = some offset) :
    ∃ name, fieldRow sel = some ⟨name, offset, .bits16⟩ := by
  have htable : ∀ k < 5, fieldTable[k]?.map (fun row => (row.offset, row.width))
      = [0x34, 0x22, 0x2E, 0x30, 0x1352][k]?.map (·, FieldWidth.bits16) := by decide
  have hsel := htable sel.toNat (List.getElem?_eq_some_iff.mp h).1
  rw [h] at hsel
  obtain ⟨⟨name, _, _⟩, hrow, heq⟩ := Option.map_eq_some_iff.mp hsel
  cases heq
  exact ⟨name, hrow⟩

theorem exec_fld {sel : Half} {row : FieldRow} (h : fieldRow sel = some row) (s : State) :
    exec (.fld sel) s = readRecord row.offset row.width.bytes (s.recordField row.offset row.width) s := by
  simp only [exec, execFld, h]

/-- FLD of a 16-bit field is RD16 at the table's offset (R175). -/
theorem exec_fld_eq_exec_rd16 {sel imm : Half} {name : FieldName}
    (h : fieldRow sel = some ⟨name, imm.toNat, .bits16⟩) (s : State) : exec (.fld sel) s = exec (.rd16 imm) s :=
  (exec_fld h s).trans (exec_rd16 imm s).symm

/-- FLD of a byte is RD8 at the table's offset (R175). -/
theorem exec_fld_eq_exec_rd8 {sel imm : Half} {name : FieldName}
    (h : fieldRow sel = some ⟨name, imm.toNat, .bits8⟩) (s : State) : exec (.fld sel) s = exec (.rd8 imm) s :=
  (exec_fld h s).trans (exec_rd8 imm s).symm

/-- Settles O23: FLD is RD16 or RD8 at the offset of its row, and a selector without a row is not well-formed. -/
theorem fldReadsTheFixedFields : Obligations.FldReadsTheFixedFields := by
  refine ⟨fun sel => toNat_encode_of_bit_zero (i := .fld sel) rfl rfl,
    fun sel hsel => decode_encode_error (decide_eq_false (not_le.mpr hsel)),
    fun sel s hsel hout => ?window, fun sel offset s hoffset hbuf => ?half, fun s hbuf => ?byte⟩
  case window =>
    obtain ⟨row, hrow⟩ := exists_fieldRow hsel
    exact exec_fld hrow s ▸ readRecord_errorOnly (.inl hout)
  case half =>
    obtain ⟨name, hrow⟩ := fieldRow_bits16 hoffset
    have hn : offset + 2 ≤ 5200 := inRecord_of_fieldRow hrow
    have himm : (BitVec.ofNat 16 offset).toNat = offset :=
      (BitVec.toNat_ofNat offset 16).trans (Nat.mod_eq_of_lt (by omega))
    rw [← himm] at hrow hn
    obtain ⟨t, ht, hread⟩ := exec_rd16_reads hbuf hn
    rw [himm] at hread
    exact ⟨t, (exec_fld_eq_exec_rd16 hrow s).trans ht, ht, hread⟩
  case byte =>
    obtain ⟨t, ht, hread⟩ := exec_rd8_reads (imm := 0x1354#16) hbuf (by decide)
    exact ⟨t, (exec_fld_eq_exec_rd8 (name := .slotidx) rfl s).trans ht, ht, hread⟩

/-! ## The accessor properties (R178) -/

/-- Everything but R and STATUS is as before. -/
def WritesOnlyRAndStatus (s t : State) : Prop := t = { s with r := t.r, status := t.status }

theorem ErrorOnly.writesOnlyRAndStatus {code : BitVec 3} {s t : State} (h : ErrorOnly code s t) :
    WritesOnlyRAndStatus s t := by
  obtain ⟨-, -, -, hframe⟩ := h
  have hr : t.r = s.r := by rw [hframe]
  rw [WritesOnlyRAndStatus, hr]
  exact hframe

theorem readRecord_writesOnlyRAndStatus {offset n : Nat} {v : Word} {s t : State}
    (h : readRecord offset n v s = .next t) : WritesOnlyRAndStatus s t := by
  rcases readRecord_next h with herr | ⟨-, -, hframe⟩
  · exact herr.writesOnlyRAndStatus
  · exact hframe

theorem execFld_writesOnlyRAndStatus {sel : Half} {s t : State} (h : execFld sel s = .next t) :
    WritesOnlyRAndStatus s t := by
  unfold execFld at h
  split at h
  · exact (errorOnly_of_raise h).writesOnlyRAndStatus
  · exact readRecord_writesOnlyRAndStatus h

/-- Settles O32: each FMX command is a read of the record that ends in R, or an error. -/
theorem fieldReadsArePure : Obligations.FieldReadsArePure := by
  refine ⟨fun imm bit s t h hzero => ?bit, fun imm s t h hzero h1 => ?half, fun imm bit i s t hi h => ?frame⟩
  case bit =>
    rw [exec_rdbit] at h
    rw [readRecord_r_of_err_zero h hzero]
    exact bitWord_eq_zero_or_one _
  case half =>
    rw [exec_rd16] at h
    have hr : ∀ b0, s.byteAt (s.rb.toNat + imm.toNat) = b0 → t.r = BitVec.ofNat 32 (be16 b0 0xFF#8) := fun b0 h0 =>
      (readRecord_r_of_err_zero h hzero).trans (recordField_bits16_of_bytes h0 h1)
    exact ⟨hr 0x00#8, hr 0xFF#8⟩
  case frame =>
    simp only [List.mem_cons, List.not_mem_nil, or_false] at hi
    rcases hi with rfl | rfl | rfl | rfl
    · exact readRecord_writesOnlyRAndStatus (exec_rd16 imm s ▸ h)
    · exact readRecord_writesOnlyRAndStatus (exec_rd8 imm s ▸ h)
    · exact readRecord_writesOnlyRAndStatus (exec_rdbit imm bit s ▸ h)
    · exact execFld_writesOnlyRAndStatus h

end Sys2Proof.Machine
end

section
/-! PROOFS. The statements of 44_host_control.md: what each operation of the host does (R191-R194, R197), which
operations have no step (R198), and how a command word ends (R195, R196). -/
namespace Sys2Proof.Machine

/-! ## A step is the host's next operation (R190) -/

theorem step_of_script_nil {s : State} (h : s.script = []) : step s = .next s := by
  simp only [step, performNext, h]

theorem step_of_script_cons {s : State} {op : HostOp} {rest : List HostOp} (h : s.script = op :: rest) :
    step s = performOp op (s.begin rest) := by
  simp only [step, performNext, h]

/-- A 32-bit write at a register's offset and a write by its name are the same operation. -/
theorem performOp_of_writesReg {op : HostOp} {reg : Reg} {v : Word} (h : op.writesReg reg v) (s : State) :
    performOp op s = regWrite reg v s := by
  rcases h with rfl | ⟨offset, htarget, rfl⟩
  · rfl
  · exact (performOp_window_reg htarget v s).1

/-! ## How a command word ends (R195) -/

/-- An illegal word raises IllegalCommand, and a legal one is its command: there is no third outcome. -/
theorem execute_outcomes (c : Word) (s : State) :
    (∃ e, execute c s = raise e s) ∨ ∃ i t, execute c s = .next t ∧ Succeeds i s t := by
  unfold execute
  split
  · exact .inl ⟨_, rfl⟩
  · next i _ => exact (exec_outcomes i s).imp_right fun ⟨t, ht, hs⟩ => ⟨i, t, ht, hs⟩

/-- A success keeps EF: CKVER's verdict is above it (10_state.md R34). -/
theorem Succeeds.ef_eq {i : Instr} {s t : State} (h : Succeeds i s t) : Status.ef t.status = Status.ef s.status := by
  rcases h.status with hst | ⟨-, m, hst⟩
  · rw [hst, Status.ef, Status.getLsbD_succeed]
    rfl
  · rw [hst, Status.ef, Status.getLsbD_succeed, Status.getLsbD_setVerdict]
    rfl

/-- The codes a command can report (60_exceptions.md R211). -/
theorem errorOnly_code {e : ErrorKind} {s t : State} (h : ErrorOnly (errorCode e) s t) :
    ErrorOnly 1#3 s t ∨ ErrorOnly 2#3 s t ∨ ErrorOnly 3#3 s t := by
  cases e with
  | malformedInput => exact .inl h
  | outOfRange => exact .inr (.inl h)
  | illegalCommand => exact .inr (.inr h)

/-- Settles O34: a command word raises one of the three errors, or it is a command that succeeds. -/
theorem everyCommandEndsInDoneOrRaise : Obligations.EveryCommandEndsInDoneOrRaise := by
  intro c s
  rcases execute_outcomes c s with ⟨e, he⟩ | ⟨i, t, ht, hs⟩
  · obtain ⟨t, ht, herr⟩ := raise_errorOnly e s
    exact ⟨t, he.trans ht, .inr (errorOnly_code herr)⟩
  · exact ⟨t, ht, .inl ⟨hs.err_eq_zero, hs.ef_eq⟩⟩

/-- Every command word has a next state. -/
theorem execute_completes (c : Word) (s : State) : ∃ t, execute c s = .next t := by
  obtain ⟨t, ht, -⟩ := everyCommandEndsInDoneOrRaise c s
  exact ⟨t, ht⟩

/-- A step whose operation writes CMD executes the word written (10_state.md R31). -/
theorem step_of_writesCmd {s : State} {op : HostOp} {rest : List HostOp} {c : Word} (hs : s.script = op :: rest)
    (hw : op.writesReg .cmd c) : step s = execute c (s.begin rest) :=
  (step_of_script_cons hs).trans (performOp_of_writesReg hw (s.begin rest))

/-- Settles O5: the step executes the word, which is its command. -/
theorem stepRunsTheDecodedCommand : Obligations.StepRunsTheDecodedCommand := by
  intro s op rest c i hs hw hi
  rw [step_of_writesCmd hs hw, execute, hi]

/-- Settles O6: the step executes the word, which raises IllegalCommand. -/
theorem stepRaisesIllegalCommand : Obligations.StepRaisesIllegalCommand := by
  intro s op rest c hs hw hc
  rw [step_of_writesCmd hs hw]
  exact execute_illegalWord hc (s.begin rest)

/-! ## NOP (R196) -/

/-- The one command with OPC 0x00 is NOP. -/
theorem eq_nop_of_decode {c : Word} {i : Instr} (h : decode c = .ok i) (hopc : c.toNat % 256 = 0) : i = .nop := by
  obtain ⟨m, hm, -, -, -, -, rfl⟩ := decode_ok_cases h
  have hzero : cmdOpc c = 0x00#8 := BitVec.eq_of_toNat_eq ((toNat_cmdOpc c).trans hopc)
  rw [hzero] at hm
  cases hm
  rfl

/-- Settles O7: a word with OPC 0x00 that decodes is NOP's own word, 0; and NOP is `done`. -/
theorem nopClearsErrAlone : Obligations.NopClearsErrAlone := by
  have hnop : encode .nop = 0x00000000#32 := by decide
  refine ⟨hnop, fun c hopc hc => ?_, fun s => ⟨_, done_eq s, statusDone_of_succeed rfl, rfl⟩⟩
  rw [exists_decode_error_iff]
  rintro ⟨i, hi⟩
  obtain rfl : i = .nop := eq_nop_of_decode hi hopc
  exact hc ((encode_of_decode hi).symm.trans hnop)

/-! ## Register accesses (R191, R192, R197) -/

theorem extractLsb'_low_half (v : Word) : v.extractLsb' 0 16 = BitVec.ofNat 16 v.toNat := by simp [BitVec.extractLsb']

/-- An offset between the registers and BUF is reserved (10_state.md R44). -/
theorem windowTarget_reserved {offset : BitVec 16} (hlow : 0x28 ≤ offset.toNat) (hhigh : offset.toNat ≤ 0x7FFF) :
    windowTarget offset = .reserved := by
  have hbuf : ¬ 0x8000 ≤ offset.toNat := by omega
  simp only [windowTarget]
  rw [if_neg hbuf, if_pos hlow]

/-- A 32-bit write at a reserved offset is ignored, and a read there answers 0. -/
theorem performOp_window_reserved {offset : BitVec 16} (h : windowTarget offset = .reserved) (v : Word) (s : State) :
    performOp (.windowWrite offset 32 v) s = .next s ∧
      performOp (.windowRead offset 32) s = .next (s.setResponse (.word 0)) := by
  simp [performOp, windowWrite, windowRead, h]

/-- The host's write of STATUS clears EF and MMS where it has their bits, and keeps every other bit (R197). -/
theorem status_hostWrite_rule (st v : Word) :
    (Status.ef (Status.hostWrite st v) = true ↔ Status.ef st = true ∧ v.getLsbD 3 = false) ∧
      (Status.mms (Status.hostWrite st v) = true ↔ Status.mms st = true ∧ v.getLsbD 5 = false) ∧
      ∀ k, k ≠ 3 → k ≠ 5 → (Status.hostWrite st v).getLsbD k = st.getLsbD k := by
  refine ⟨?_, ?_, fun k h3 h5 => ?_⟩
  · rw [Status.ef, Status.getLsbD_hostWrite, Status.ef]
    simp
  · rw [Status.mms, Status.getLsbD_hostWrite, Status.mms]
    simp
  · simp [Status.getLsbD_hostWrite, h3, h5]

/-- Settles O45, one register's rule after another. -/
theorem regWriteFollowsItsRule : Obligations.RegWriteFollowsItsRule := by
  intro s v rest
  rw [← extractLsb'_low_half]
  refine ⟨step_of_script_cons, fun hs => ⟨_, step_of_script_cons hs, rfl, status_hostWrite_rule s.status v⟩,
    step_of_script_cons, step_of_script_cons, step_of_script_cons, step_of_script_cons, step_of_script_cons,
    fun reg hreg hs => ?readOnly, fun offset hlow hhigh hs => ?reserved⟩
  case readOnly =>
    simp only [List.mem_cons, List.not_mem_nil, or_false] at hreg
    rcases hreg with rfl | rfl | rfl <;> exact step_of_script_cons hs
  case reserved =>
    rw [step_of_script_cons hs]
    exact (performOp_window_reserved (windowTarget_reserved hlow hhigh) v (s.begin rest)).1

theorem toNat_hostRead (st : Word) : (Status.hostRead st).toNat = st.toNat % 64 :=
  (BitVec.toNat_and st 0x3F#32).trans (Nat.and_two_pow_sub_one_eq_mod st.toNat 6)

/-- Settles O46: the value read is `regValue`'s, whose 16-bit registers are zero-extended. -/
theorem regReadFollowsItsRule : Obligations.RegReadFollowsItsRule := by
  refine fun s rest => ⟨fun reg hs => ⟨regValue reg (s.begin rest), step_of_script_cons hs, ?value⟩,
    fun offset hlow hhigh hs => ?reserved⟩
  case value =>
    refine ⟨?_, ?_, ?_, ?_, ?_, ?_, ?_, ?_, ?_, ?_⟩ <;> rintro rfl
    · rfl
    · exact toNat_hostRead s.status
    · exact toNat_setWidth_word s.a
    · exact toNat_setWidth_word s.l
    · exact toNat_setWidth_word s.d
    · exact toNat_setWidth_word s.rb
    · rfl
    · rfl
    · exact toNat_setWidth_word s.acc
    · exact toNat_setWidth_word s.expected
  case reserved =>
    rw [step_of_script_cons hs]
    exact (performOp_window_reserved (windowTarget_reserved hlow hhigh) 0 (s.begin rest)).2

/-! ## The operations that have no step (R198) -/

theorem regWrite_completes (reg : Reg) (v : Word) (s : State) : ∃ t, regWrite reg v s = .next t := by
  cases reg with
  | cmd => exact execute_completes v s
  | status | a | l | d | rb | w | r | acc | exp => exact ⟨_, rfl⟩

theorem bufWrite_of_lt {i : Nat} (hi : i < Config.bufBytes) (b : Byte) (s : State) :
    bufWrite i b s = .next (s.memWrite i [b]) := if_pos hi

theorem bufRead_of_lt {i : Nat} (hi : i < Config.bufBytes) (s : State) :
    bufRead i s = .next (s.setResponse (.byte (s.byteAt i))) := if_pos hi

/-- The offsets with bit 15 set are BUF's, and no others are (10_state.md R44). -/
theorem windowTarget_of_ge {offset : BitVec 16} (h : 0x8000 ≤ offset.toNat) :
    windowTarget offset = .buf (offset.toNat - 0x8000) := by
  simp only [windowTarget]
  rw [if_pos h]

theorem windowTarget_ne_buf {offset : BitVec 16} (h : offset.toNat < 0x8000) (i : Nat) :
    windowTarget offset ≠ .buf i := by
  by_cases hlow : 0x28 ≤ offset.toNat
  · rw [windowTarget_reserved hlow (Nat.le_of_lt_succ h)]
    simp
  · simp only [windowTarget]
    rw [if_neg (not_le.mpr h), if_neg hlow]
    split <;> simp

theorem lt_bufBytes_of_windowTarget {offset : BitVec 16} {i : Nat} (h : windowTarget offset = .buf i) :
    i < Config.bufBytes := by
  have hoffset := offset.isLt
  have hge : 0x8000 ≤ offset.toNat := not_lt.mp fun hlt => windowTarget_ne_buf hlt i h
  rw [windowTarget_of_ge hge, WindowTarget.buf.injEq] at h
  rw [Config.bufBytes]
  omega

/-- A window access that is not refused reaches a register, a reserved offset or BUF with the width that is its own;
whether it reads or writes does not matter. -/
theorem performOp_window_completes {offset : BitVec 16} {width : Nat}
    (h : (HostOp.windowRead offset width).refusedBySpec = false) (v : Word) (s : State) :
    (∃ t, performOp (.windowWrite offset width v) s = .next t) ∧
      ∃ t, performOp (.windowRead offset width) s = .next t := by
  cases htarget : windowTarget offset with
  | reg reg =>
    obtain rfl : width = 32 := by simpa [HostOp.refusedBySpec, htarget] using h
    obtain ⟨hw, hr⟩ := performOp_window_reg htarget v s
    rw [hw, hr]
    exact ⟨regWrite_completes reg v s, _, rfl⟩
  | reserved =>
    obtain rfl : width = 32 := by simpa [HostOp.refusedBySpec, htarget] using h
    obtain ⟨hw, hr⟩ := performOp_window_reserved htarget v s
    exact ⟨⟨_, hw⟩, _, hr⟩
  | buf i =>
    obtain rfl : width = 8 := by simpa [HostOp.refusedBySpec, htarget] using h
    have hi : i < Config.bufBytes := lt_bufBytes_of_windowTarget htarget
    obtain ⟨hw, hr⟩ := performOp_window_buf htarget v s
    exact ⟨⟨_, hw.trans (bufWrite_of_lt hi _ s)⟩, _, hr.trans (bufRead_of_lt hi s)⟩
  | noRegister => simp [HostOp.refusedBySpec, htarget] at h

theorem performOp_window_refused {offset : BitVec 16} {width : Nat}
    (h : (HostOp.windowRead offset width).refusedBySpec = true) (v : Word) (s : State) :
    (∃ e, performOp (.windowWrite offset width v) s = .refused e) ∧
      ∃ e, performOp (.windowRead offset width) s = .refused e := by
  cases htarget : windowTarget offset with
  | reg _ | reserved =>
    have hwidth : width ≠ 32 := by simpa [HostOp.refusedBySpec, htarget] using h
    simp [performOp, windowWrite, windowRead, htarget, hwidth]
  | buf _ =>
    have hwidth : width ≠ 8 := by simpa [HostOp.refusedBySpec, htarget] using h
    simp [performOp, windowWrite, windowRead, htarget, hwidth]
  | noRegister => by_cases hwidth : width = 32 <;> simp [performOp, windowWrite, windowRead, htarget, hwidth]

theorem performOp_completes {op : HostOp} (h : op.refusedBySpec = false) (s : State) :
    ∃ t, performOp op s = .next t := by
  cases op with
  | regWrite reg v => exact regWrite_completes reg v s
  | regRead _ | reset => exact ⟨_, rfl⟩
  | bufWrite i b => exact ⟨_, bufWrite_of_lt (not_le.mp (of_decide_eq_false h)) b s⟩
  | bufRead i => exact ⟨_, bufRead_of_lt (not_le.mp (of_decide_eq_false h)) s⟩
  | windowWrite offset width v => exact (performOp_window_completes h v s).1
  | windowRead offset width => exact (performOp_window_completes h 0 s).2

theorem performOp_refused {op : HostOp} (h : op.refusedBySpec = true) (s : State) :
    ∃ e, performOp op s = .refused e := by
  cases op with
  | regWrite _ _ | regRead _ | reset => cases h
  | bufWrite i b => exact ⟨_, if_neg (not_lt.mpr (of_decide_eq_true h))⟩
  | bufRead i => exact ⟨_, if_neg (not_lt.mpr (of_decide_eq_true h))⟩
  | windowWrite offset width v => exact (performOp_window_refused h v s).1
  | windowRead offset width => exact (performOp_window_refused h 0 s).2

/-- A step whose operation is a refused one is refused. -/
theorem step_refused {s : State} {op : HostOp} {rest : List HostOp} (hs : s.script = op :: rest)
    (h : op.refusedBySpec = true) : ∃ e, step s = .refused e :=
  step_of_script_cons hs ▸ performOp_refused h _

/-- Settles O43: the step is the host's next operation, which completes or is refused. -/
theorem stepsCompleteUnlessRefused : Obligations.StepsCompleteUnlessRefused := by
  refine ⟨fun s => ⟨?only, ?all⟩, fun _ => step_of_script_nil⟩
  case only =>
    rintro ⟨t, ht⟩ op rest hs
    rw [← Bool.not_eq_true]
    intro hop
    obtain ⟨e, he⟩ := step_refused hs hop
    cases ht.symm.trans he
  case all =>
    intro h
    cases hs : s.script with
    | nil => exact ⟨s, step_of_script_nil hs⟩
    | cons op rest =>
      obtain ⟨t, ht⟩ := performOp_completes (h op rest hs) (s.begin rest)
      exact ⟨t, (step_of_script_cons hs).trans ht⟩

theorem window_refused_of_below {offset : BitVec 16} {width : Nat} (hoffset : offset.toNat < 0x8000)
    (hwidth : width ≠ 32) : (HostOp.windowRead offset width).refusedBySpec = true := by
  cases htarget : windowTarget offset with
  | buf i => exact absurd htarget (windowTarget_ne_buf hoffset i)
  | reg _ | reserved | noRegister => simp [HostOp.refusedBySpec, htarget, hwidth]

theorem window_refused_of_above {offset : BitVec 16} {width : Nat} (hoffset : 0x8000 ≤ offset.toNat)
    (hwidth : width ≠ 8) : (HostOp.windowRead offset width).refusedBySpec = true := by
  simp [HostOp.refusedBySpec, windowTarget_of_ge hoffset, hwidth]

/-- Settles O51: each of these operations is a refused one; a window write is refused where the read is. -/
theorem refusedAccessesHaveNoStep : Obligations.RefusedAccessesHaveNoStep := by
  refine fun s op rest hs => ⟨fun i hi hop => step_refused hs ?_, fun offset width hoffset hwidth hop =>
    step_refused hs ?_, fun offset width hoffset hwidth hop => step_refused hs ?_⟩
  · rcases hop with rfl | ⟨b, rfl⟩ <;> exact decide_eq_true hi
  · rcases hop with rfl | ⟨v, rfl⟩ <;> exact window_refused_of_below hoffset hwidth
  · rcases hop with rfl | ⟨v, rfl⟩ <;> exact window_refused_of_above hoffset hwidth

/-! ## Buffer accesses (R193, R194) -/

/-- Settles O47: a BufWrite is a write of one byte. -/
theorem bufWriteSetsOneByte : Obligations.BufWriteSetsOneByte := by
  refine fun s i b rest hs => ⟨fun hi => ⟨(s.begin rest).memWrite i [b], ?_, ?_, fun k hk => ?_, rfl⟩,
    fun hi => step_refused hs (decide_eq_true hi)⟩
  · exact (step_of_script_cons hs).trans (bufWrite_of_lt hi b _)
  · exact State.byteAt_memWrite_inside (s.begin rest) i [b] 0 (by simp)
  · exact State.byteAt_memWrite_outside (s.begin rest) i [b] k hk

/-- A byte that nothing has written reads as its free draw (70_reset_and_hazards.md R241). -/
theorem State.byteAt_unlisted {s : State} {i : Nat} (h : ∀ b, (i, b) ∉ s.buf) :
    s.byteAt i = Config.powerOnByte s.powerOn i := by
  have hnone : s.buf.lookup i = none := List.lookup_eq_none_iff.mpr fun c hc => by
    rw [bne_iff_ne]
    rintro rfl
    exact h c.2 hc
  rw [State.byteAt, Memory.read, hnone]
  rfl

/-- Settles O48: a BufRead answers `byteAt`, whose value at an unlisted index is the draw. -/
theorem bufReadAnswersTheByte : Obligations.BufReadAnswersTheByte := fun s _ rest hs =>
  ⟨fun hi => (step_of_script_cons hs).trans (bufRead_of_lt hi (s.begin rest)), State.byteAt_unlisted,
    fun hi => step_refused hs (decide_eq_true hi)⟩

end Sys2Proof.Machine
end

section
/-! PROOFS. The statements of 60_exceptions.md: an error changes ERR and EF alone (R214), and of several errors the
first in the order of R215 is reported. -/
namespace Sys2Proof.Machine

/-! ## An error changes ERR and EF alone (R214) -/

/-- Settles O33: a word that raised wrote the code it raised, and one that succeeded has ERR 0. -/
theorem errorsTouchOnlyErrAndEf : Obligations.ErrorsTouchOnlyErrAndEf := by
  intro c s t h hne
  rcases execute_outcomes c s with ⟨e, he⟩ | ⟨i, u, hu, hs⟩
  · have herr : ErrorOnly (errorCode e) s t := errorOnly_of_raise (he.symm.trans h)
    rwa [← herr.left] at herr
  · cases h.symm.trans hu
    exact absurd hs.err_eq_zero hne

/-! ## MalformedInput is SWAPB's alone, and its last check (R211, R215) -/

theorem execute_of_decode {c : Word} {i : Instr} (h : decode c = .ok i) (s : State) : execute c s = exec i s := by
  rw [execute, h]

/-- A next state in the result `r` does not report MalformedInput. -/
def NotMalformed (r : Result) : Prop := ∀ t, r = .next t → Status.err t.status ≠ 1#3

theorem notMalformed_done (s : State) : NotMalformed (done s) := by
  intro t h
  cases (done_eq s).symm.trans h
  rw [State.setStatus_status, Status.err_succeed]
  decide

theorem notMalformed_raise {e : ErrorKind} (he : errorCode e ≠ 1#3) (s : State) : NotMalformed (raise e s) := by
  intro t h
  obtain ⟨hcode, -⟩ := errorOnly_of_raise h
  rwa [hcode]

theorem notMalformed_outOfRange (s : State) : NotMalformed (raise .outOfRange s) := notMalformed_raise (by decide) s

theorem notMalformed_illegalCommand (s : State) : NotMalformed (raise .illegalCommand s) :=
  notMalformed_raise (by decide) s

/-- A rule whose checks raise OutOfRange where `p` fails, and that succeeds where `p` holds. -/
theorem notMalformed_of_cases {p : Prop} {r : Result} {s : State} (hout : ¬ p → r = raise .outOfRange s)
    (hin : p → ∃ u, r = done u) : NotMalformed r := by
  by_cases hp : p
  · obtain ⟨u, rfl⟩ := hin hp
    exact notMalformed_done u
  · exact hout hp ▸ notMalformed_outOfRange s

theorem notMalformed_readRecord (offset n : Nat) (v : Word) (s : State) : NotMalformed (readRecord offset n v s) :=
  notMalformed_of_cases (fun h => readRecord_outOfRange (not_and_or.mp h)) fun ⟨h, hn⟩ => ⟨_, readRecord_reads h hn⟩

theorem notMalformed_lutb (s : State) : NotMalformed (execLutb s) := by
  unfold execLutb
  split <;> exact notMalformed_done _

theorem notMalformed_fld (sel : Half) (s : State) : NotMalformed (execFld sel s) := by
  unfold execFld
  split
  · exact notMalformed_illegalCommand s
  · exact notMalformed_readRecord _ _ _ s

/-- No command but SWAPB reports MalformedInput: its checks raise OutOfRange, and FLD's selector IllegalCommand. -/
theorem exec_notMalformed {i : Instr} (hi : i ≠ .swapb) (s : State) : NotMalformed (exec i s) := by
  cases i with
  | swapb => exact absurd rfl hi
  | nop | swapw | ckclr | ckaddw => exact notMalformed_done _
  | ckadd => exact notMalformed_of_cases execCkadd_outOfRange fun h => ⟨_, execCkadd_adds h⟩
  | cksum => exact notMalformed_of_cases execCksum_outOfRange fun h => ⟨_, execCksum_sums h⟩
  | ckver => exact notMalformed_of_cases execCkver_outOfRange fun h => ⟨_, execCkver_verifies h⟩
  | ckwr => exact notMalformed_of_cases execCkwr_outOfRange fun h => ⟨_, execCkwr_stores h⟩
  | txtdec => exact notMalformed_of_cases exec_txtdec_outOfRange fun ⟨h, hd⟩ => ⟨_, execTxtdec_decodes h hd⟩
  | txtname => exact notMalformed_of_cases exec_txtname_outOfRange fun ⟨h, hd⟩ => ⟨_, execTxtname_decodes h hd⟩
  | lutb => exact notMalformed_lutb s
  | rd16 imm => exact exec_rd16 imm s ▸ notMalformed_readRecord _ _ _ s
  | rd8 imm => exact exec_rd8 imm s ▸ notMalformed_readRecord _ _ _ s
  | rdbit imm bit => exact exec_rdbit imm bit s ▸ notMalformed_readRecord _ _ _ s
  | fld sel => exact notMalformed_fld sel s

/-- SWAPB reports MalformedInput only for a range inside BUF, and only for a length that is no whole number of
groups. -/
theorem exec_swapb_of_malformed {s t : State} (h : exec .swapb s = .next t) (herr : Status.err t.status = 1#3) :
    s.rangeInBuf ∧ s.l.toNat % 4 ≠ 0 := by
  have hbuf : s.rangeInBuf := by
    by_contra hout
    exact notMalformed_outOfRange s t ((execSwapb_outOfRange hout).symm.trans h) herr
  refine ⟨hbuf, fun hn => ?_⟩
  exact notMalformed_done _ t ((execSwapb_swaps hbuf hn).symm.trans h) herr

/-- Only SWAPB's word reports MalformedInput, and only where its range check has passed. -/
theorem execute_of_malformed {c : Word} {s t : State} (h : execute c s = .next t)
    (herr : Status.err t.status = 1#3) : c = encode .swapb ∧ s.rangeInBuf ∧ s.l.toNat % 4 ≠ 0 := by
  cases hc : decode c with
  | error e =>
    rw [execute, hc] at h
    exact absurd herr (notMalformed_illegalCommand s t h)
  | ok i =>
    rw [execute_of_decode hc] at h
    obtain rfl : i = .swapb := by_contra fun hi => exec_notMalformed hi s t h herr
    exact ⟨(encode_of_decode hc).symm, exec_swapb_of_malformed h herr⟩

/-- Settles O35: decoding comes before every check, and SWAPB checks its range before its length. -/
theorem errorsAreReportedInOrder : Obligations.ErrorsAreReportedInOrder := by
  refine ⟨fun c s hc => execute_illegalWord hc s, fun s hout _ => ?range, fun c s t => execute_of_malformed⟩
  case range =>
    rw [execute_of_decode (i := .swapb) (by decide)]
    exact exec_swapb_outOfRange (not_le.mpr hout)

end Sys2Proof.Machine
end

section
/-! PROOFS. The statements of 70_reset_and_hazards.md: Reset (R240), the bytes nothing has written (R241), and the
operands of a command (R252). -/
namespace Sys2Proof.Machine

/-! ## The operands of a command (R252) -/

/-- Settles O36. -/
theorem commandsKeepTheOperands : Obligations.CommandsKeepTheOperands :=
  fun _ _ _ => execute_sameOperands

/-! ## BUF and its draws over a step (R241) -/

theorem HostEffect.powerOn_eq {op : HostOp} {s t : State} (h : HostEffect op s t) : t.powerOn = s.powerOn := by
  cases h with
  | command _ hx => exact (execute_sameHost hx).powerOn
  | status _ | a _ | l _ | d _ | rb _ | w _ | buf _ _ | reset _ | ignored | answer _ => rfl

theorem step_powerOn {s t : State} (h : step s = .next t) : t.powerOn = s.powerOn := by
  rcases step_cases h with ⟨-, rfl⟩ | ⟨op, rest, -, he⟩
  · rfl
  · exact he.powerOn_eq

/-- A byte of BUF that reads otherwise after an operation is one the operation names, or the operation is a command:
Reset, the register writes and the reads leave every byte. -/
theorem HostEffect.byte_changed {op : HostOp} {s t : State} (h : HostEffect op s t) {i : Nat}
    (hne : t.byteAt i ≠ s.byteAt i) : (∃ b, op.writesBuf i b) ∨ ∃ c, op.writesReg .cmd c := by
  cases h with
  | command hw _ => exact .inr ⟨_, hw⟩
  | @buf j b hw _ =>
    obtain rfl : i = j := by
      by_contra hij
      have houtside : i < j ∨ j + [b].length ≤ i := by rw [List.length_singleton]; omega
      exact hne (State.byteAt_memWrite_outside s j [b] i houtside)
    exact .inl ⟨b, hw⟩
  | status _ | a _ | l _ | d _ | rb _ | w _ | reset _ | ignored | answer _ => exact absurd rfl hne

theorem HostOp.eq_of_writesBuf {op : HostOp} {i : Nat} {b : Byte} (h : op.writesBuf i b) :
    op = .bufWrite i b ∨ ∃ offset v, windowTarget offset = .buf i ∧ op = .windowWrite offset 8 v :=
  h.imp_right fun ⟨offset, v, htarget, _, hop⟩ => ⟨offset, v, htarget, hop⟩

/-- Settles O49: the cause of a changed byte is the operation of the step, a write to that byte or a command. -/
theorem bytesStayUntilWritten : Obligations.BytesStayUntilWritten := by
  refine fun s t h => ⟨step_powerOn h, fun i hne => ?_⟩
  refine step_cause h (ne_of_apply_ne (fun u => u.byteAt i) hne) fun op rest he => ?_
  rcases he.byte_changed hne with ⟨b, hw⟩ | hcmd
  · exact (HostOp.eq_of_writesBuf hw).elim (fun hop => .inl ⟨b, hop⟩) fun hop => .inr (.inl hop)
  · exact .inr (.inr hcmd)

/-! ## Reset (R240) -/

/-- Settles O44: a Reset step ends in `resetState` of the begun state, and a run starts with every register 0. -/
theorem resetClearsTheRegisters : Obligations.ResetClearsTheRegisters := by
  refine ⟨fun s rest hs => ⟨resetState (s.begin rest), step_of_script_cons hs, ?_⟩, fun n => ?_⟩
  · exact ⟨rfl, rfl, rfl, rfl, rfl, rfl, rfl, rfl, rfl, State.byteAt_resetState _, rfl, rfl, rfl⟩
  · exact ⟨rfl, rfl, rfl, rfl, rfl, rfl, rfl, rfl, rfl⟩

end Sys2Proof.Machine
end
